-- ==== Sys2Proof/Word.lean ====
section
/-!
DEFINITION. The bit patterns of the block: one bit, one byte on the wire, one 16-bit operation word, one 32-bit
value (spec/00_scope.md R7, R9). A value of the caller's sequence is signed; wherever a rule slices it, it slices
its 32-bit pattern, so the pattern is what the model holds (R9, `bits32`).
-/

namespace Sys2Proof

/-- A line level, a data bit, an acknowledgment bit or a one-bit status (R9, R20). -/
abbrev Bit := BitVec 1

/-- Eight bits on the wire, followed by one acknowledgment bit (R7). -/
abbrev Byte := BitVec 8

/-- A 16-bit operation word `op[15:12] ++ zero[11:8] ++ arg[7:0]` (R79). -/
abbrev Word := BitVec 16

/-- The 32-bit two's-complement pattern of one signed value (R9, R32). -/
abbrev Value := BitVec 32

/-- `bits32(v) = v mod 2^32` of a signed number (R9). -/
abbrev bits32 (v : Int) : Value := BitVec.ofInt 32 v

end Sys2Proof
end

