-- ==== Sys2Proof/Syntax.lean ====
section
/-!
DEFINITION. The two lines and the ten operations (spec/30_encoding.md R79, R82). The operation set is closed: exactly
ten operations in three layers, one constructor for each row of spec/opcode_table.json.
-/

namespace Sys2Proof

/-- The two lines of the bus, the clock line and the data line (R2, R12). -/
inductive Line where
  | scl
  | sda
deriving DecidableEq, Repr

/-- The ten operations (R6, R79). -/
inductive Instr where
  /-- `drive_low(line)`, R101. -/
  | driveLow (line : Line)
  /-- `release_high(line)`, R102. -/
  | releaseHigh (line : Line)
  /-- `sample(line) -> bit`, R103. -/
  | sample (line : Line)
  /-- `delay_bit_time()`, R104. -/
  | delayBitTime
  /-- `start()`, R121. -/
  | start
  /-- `stop()`, R122. -/
  | stop
  /-- `write_bit(bit)`, R123. -/
  | writeBit (bit : Bit)
  /-- `read_ack() -> bool`, R124. -/
  | readAck
  /-- `write_byte(byte) -> bool`, R125. -/
  | writeByte (byte : Byte)
  /-- `send_frame(values, count)`, R150; `values` comes from `VAL`. The count is the caller's number, which may be
  wider than the 8-bit port: one above 255 is ill-formed and refused, never reduced modulo 256 (R158). -/
  | sendFrame (count : Nat)
deriving DecidableEq, Repr

/-- The three layers, each built strictly on the one below (R2). -/
inductive Layer where
  | lineDriver
  | protocolEngine
  | frameTransmitter
deriving DecidableEq, Repr

/-- The layer an operation belongs to (R79, column `layer`). -/
def Instr.layer : Instr → Layer
  | .driveLow _ => .lineDriver
  | .releaseHigh _ => .lineDriver
  | .sample _ => .lineDriver
  | .delayBitTime => .lineDriver
  | .start => .protocolEngine
  | .stop => .protocolEngine
  | .writeBit _ => .protocolEngine
  | .readAck => .protocolEngine
  | .writeByte _ => .protocolEngine
  | .sendFrame _ => .frameTransmitter

end Sys2Proof
end

