-- ==== Sys2Proof/WellFormed.lean ====
section
/-!
DEFINITION. Which terms of `Instr` are operations of the block. Lines, bits and bytes are typed so that every term of
theirs is one; the count of `send_frame` is a number of the caller and must fit the 8-bit port (spec/42_frame_transmitter.md
R158).
-/

namespace Sys2Proof

/-- The largest count the 8-bit port holds (R7, R158). -/
def maxCount : Nat := 255

/-- An operation is well formed when its operands fit the block's ports. -/
def Instr.wellFormed : Instr → Bool
  | .driveLow _ => true
  | .releaseHigh _ => true
  | .sample _ => true
  | .delayBitTime => true
  | .start => true
  | .stop => true
  | .writeBit _ => true
  | .readAck => true
  | .writeByte _ => true
  | .sendFrame count => decide (count ≤ maxCount)

end Sys2Proof
end

