-- ==== Sys2Proof/Decode.lean ====
section
/-!
DEFINITION. Operation words (spec/30_encoding.md R79, R81): the decoder, total on every 16-bit word and refusing by
name, then the encoder, then the table of `match` and `mask`. No wire, pin or register of the hardware carries an
operation word, so a word has no byte order (spec/20_memory.md R54).
-/

namespace Sys2Proof

/-- Why a word is no operation (R81). -/
inductive DecodeError where
  /-- `op` in `0xA .. 0xF`: no such operation (X11). -/
  | noSuchOperation (word : Word)
  /-- `zero[11:8]` not 0, or an `arg` bit set that the row says is 0: reserved bits set (X12, X13, X14). -/
  | reservedBits (word : Word)
deriving DecidableEq, Repr

/-- `op[15:12]` (R79). -/
def opField (w : Word) : BitVec 4 := w.extractLsb' 12 4

/-- `zero[11:8]` (R79). -/
def zeroField (w : Word) : BitVec 4 := w.extractLsb' 8 4

/-- `arg[7:0]` (R79). -/
def argField (w : Word) : Byte := w.extractLsb' 0 8

/-- `arg[7:1]`, reserved in the rows whose operand is one bit (R79). -/
def argHighField (w : Word) : BitVec 7 := w.extractLsb' 1 7

/-- `arg[0]`, a line or a bit (R79). -/
def argLowField (w : Word) : Bit := w.extractLsb' 0 1

/-- Line coding in `arg[0]`: 0 is SCL, 1 is SDA (R79, D3). -/
def lineOfBit (b : Bit) : Line := if b = 0 then .scl else .sda

/-- The line coding the other way. -/
def bitOfLine : Line → Bit
  | .scl => 0
  | .sda => 1

/-- A row without operand: `zero` and `arg` are 0. -/
def decodePlain (i : Instr) (w : Word) : Except DecodeError Instr :=
  if zeroField w = 0 ∧ argField w = 0 then .ok i else .error (.reservedBits w)

/-- A row whose operand is a line in `arg[0]`. -/
def decodeLine (mk : Line → Instr) (w : Word) : Except DecodeError Instr :=
  if zeroField w = 0 ∧ argHighField w = 0 then .ok (mk (lineOfBit (argLowField w))) else .error (.reservedBits w)

/-- A row whose operand is a bit in `arg[0]`. -/
def decodeBit (mk : Bit → Instr) (w : Word) : Except DecodeError Instr :=
  if zeroField w = 0 ∧ argHighField w = 0 then .ok (mk (argLowField w)) else .error (.reservedBits w)

/-- A row whose operand is the whole of `arg`. -/
def decodeByte (mk : Byte → Instr) (w : Word) : Except DecodeError Instr :=
  if zeroField w = 0 then .ok (mk (argField w)) else .error (.reservedBits w)

/-- The operation a word names, or why it names none (R79, R81). DESIGN CHOICE (safe, log 29): where both reasons of R81
hold, `op` in `0xA .. 0xF` and reserved bits set, the reason given is that there is no such operation. -/
def decode (w : Word) : Except DecodeError Instr :=
  match (opField w).toNat with
  | 0x0 => decodeLine .driveLow w
  | 0x1 => decodeLine .releaseHigh w
  | 0x2 => decodeLine .sample w
  | 0x3 => decodePlain .delayBitTime w
  | 0x4 => decodePlain .start w
  | 0x5 => decodePlain .stop w
  | 0x6 => decodeBit .writeBit w
  | 0x7 => decodePlain .readAck w
  | 0x8 => decodeByte .writeByte w
  | 0x9 => decodeByte (fun count => .sendFrame count.toNat) w
  | _ => .error (.noSuchOperation w)

/-- `op[15:12] ++ 0000 ++ arg[7:0]` (R79). -/
def wordOf (op : BitVec 4) (arg : Byte) : Word := op ++ (0 : BitVec 4) ++ arg

/-- An operand of one bit in `arg[0]`, `arg[7:1]` being 0. -/
def argOfBit (b : Bit) : Byte := (0 : BitVec 7) ++ b

/-- The word of a well-formed operation (R79). An ill-formed count has no word; what this gives for one is not used. -/
def encode : Instr → Word
  | .driveLow line => wordOf 0x0 (argOfBit (bitOfLine line))
  | .releaseHigh line => wordOf 0x1 (argOfBit (bitOfLine line))
  | .sample line => wordOf 0x2 (argOfBit (bitOfLine line))
  | .delayBitTime => wordOf 0x3 0
  | .start => wordOf 0x4 0
  | .stop => wordOf 0x5 0
  | .writeBit bit => wordOf 0x6 (argOfBit bit)
  | .readAck => wordOf 0x7 0
  | .writeByte byte => wordOf 0x8 byte
  | .sendFrame count => wordOf 0x9 (BitVec.ofNat 8 count)

/-- One row of the table of R79: a word `w` selects the row with `w & mask = match`. -/
structure OpRow where
  pattern : Word
  mask : Word
deriving DecidableEq, Repr

/-- A word selects a row (R79). -/
def OpRow.selects (r : OpRow) (w : Word) : Bool := w &&& r.mask == r.pattern

/-- The row of an operation, as R79's table prints it. -/
def opRow : Instr → OpRow
  | .driveLow _ => ⟨0x0000, 0xFFFE⟩
  | .releaseHigh _ => ⟨0x1000, 0xFFFE⟩
  | .sample _ => ⟨0x2000, 0xFFFE⟩
  | .delayBitTime => ⟨0x3000, 0xFFFF⟩
  | .start => ⟨0x4000, 0xFFFF⟩
  | .stop => ⟨0x5000, 0xFFFF⟩
  | .writeBit _ => ⟨0x6000, 0xFFFE⟩
  | .readAck => ⟨0x7000, 0xFFFF⟩
  | .writeByte _ => ⟨0x8000, 0xFF00⟩
  | .sendFrame _ => ⟨0x9000, 0xFF00⟩

/-- The ten rows, in the table's order. -/
def opRows : List OpRow :=
  [⟨0x0000, 0xFFFE⟩, ⟨0x1000, 0xFFFE⟩, ⟨0x2000, 0xFFFE⟩, ⟨0x3000, 0xFFFF⟩, ⟨0x4000, 0xFFFF⟩,
   ⟨0x5000, 0xFFFF⟩, ⟨0x6000, 0xFFFE⟩, ⟨0x7000, 0xFFFF⟩, ⟨0x8000, 0xFF00⟩, ⟨0x9000, 0xFF00⟩]

/-- The 16-bit word of an instruction given as `nbits` bits of `w`, every bit above them 0. -/
def tableWord (nbits w : Nat) : Word := BitVec.ofNat 16 (w % 2 ^ nbits)

/-- The operation the decoder reads from an instruction whose bits are `w`, numbered as spec/opcode_table.json
numbers them. -/
def decodeTableWord (nbits w : Nat) : Option Instr :=
  match decode (tableWord nbits w) with
  | .ok i => some i
  | .error _ => none

end Sys2Proof
end

