-- ==== Sys2Proof/Config.lean ====
section
/-!
DEFINITION. What the spec leaves to configuration or to the environment: the three configuration fields (spec/00_scope.md
R8, spec/10_state.md R29) and the bit a sample of the data line finds (R23), as constants without a body; and the events
of the call trace, since the environment's answer is a function of the history.
-/

namespace Sys2Proof

/-- One Line Driver primitive as it stands in the call trace (R11, R31): a sample carries the value it returned. -/
inductive Event where
  | driveLow (line : Line)
  | releaseHigh (line : Line)
  | sample (line : Line) (value : Bit)
  | delay
deriving DecidableEq, Repr

/-- The configuration structure, fixed when the block is built (R29). A line identifier is opaque; a duration is a
number of an unstated unit. -/
structure LineConfig where
  /-- `CFG.SCL_ID`: which general-purpose line is the clock line (R8). -/
  sclId : Nat
  /-- `CFG.SDA_ID`: which general-purpose line is the data line (R8). -/
  sdaId : Nat
  /-- `CFG.T_BIT`: the Bit-Time (R8). -/
  tBit : Nat
deriving DecidableEq, Repr

/-- What R29 asks of a configuration: two different lines and a positive Bit-Time. -/
def LineConfig.ok (c : LineConfig) : Bool :=
  decide (c.sclId ≠ c.sdaId) && decide (0 < c.tBit)

namespace Config

/-- `CFG.SCL_ID` of the instance: an open parameter, any identifier (D22, U8). -/
opaque sclId : Nat

/-- Chooses `CFG.SDA_ID` among the identifiers other than `sclId`: any number. -/
opaque sdaChoice : Nat

/-- One less than `CFG.T_BIT`: any number, so that `T_BIT` is any positive duration (D22). -/
opaque tBitPred : Nat

/-- FREE VALUE. `Env(h)` of R23 and D17: the bit the environment contributes to the data line at a sample taken after
the history `h`, the history being how many resets the instance has seen and the call trace since the last one.
Nothing constrains it: an absent peripheral, an acknowledging one and a stuck bus are all instances (R213, U7). -/
opaque envSda (resets : Nat) (history : List Event) : Bit

/-- The configuration of the instance: any that R29 allows. `sdaChoice` skips over `sclId`, so every identifier but
that one can be the data line's. -/
def lines : LineConfig where
  sclId := sclId
  sdaId := if sdaChoice < sclId then sdaChoice else sdaChoice + 1
  tBit := tBitPred + 1

end Config

end Sys2Proof
end

