-- ==== Sys2Proof/Machine/State.lean ====
section
/-!
DEFINITION. The state of one instance of the block (spec/10_state.md), as plain data: what the hardware holds (line
states, phase, working registers, status bits), its configuration, the caller's sequence, the bookkeeping R31 asks a
model to keep, and three fields of the model's own. `State.reset` is the state after reset (R35).
-/

namespace Sys2Proof.Machine

/-- The drive state of one line: exactly two values, and no driven-high (R20, R21). -/
inductive Drive where
  /-- DRIVEN-LOW, written `0`. -/
  | drivenLow
  /-- RELEASED-HIGH, written `1`. -/
  | releasedHigh
deriving DecidableEq, Repr

/-- The numeric coding of a drive state: the level the master contributes (R20). -/
def Drive.bit : Drive → Bit
  | .drivenLow => 0
  | .releasedHigh => 1

/-- `drv`, the drive states of both lines (R20), written `(SCL, SDA)` in the spec. -/
structure Drives where
  scl : Drive
  sda : Drive
deriving DecidableEq, Repr

/-- `drv[L]`. -/
def Drives.get (d : Drives) : Line → Drive
  | .scl => d.scl
  | .sda => d.sda

/-- `drv` with `drv[L] <- v`. -/
def Drives.set (d : Drives) (l : Line) (v : Drive) : Drives :=
  match l with
  | .scl => { d with scl := v }
  | .sda => { d with sda := v }

/-- Both lines released: `drv = (1, 1)` (R33). -/
def Drives.released : Drives := ⟨.releasedHigh, .releasedHigh⟩

/-- The phase of the Protocol Engine (R24). -/
inductive Phase where
  | idle
  | started
  | byteActive
  /-- Holds only inside `stop`; at no operation boundary (R24). -/
  | stopped
deriving DecidableEq, Repr

/-- What the host or a test bench offers the block (R218, R80). -/
inductive Input where
  /-- An operation word, the test bench's door to the operations of all three layers (R80). -/
  | operation (word : Word)
  /-- The host's request of one `send_frame` with its arguments; the count is the caller's number (R158, R218). -/
  | frame (values : List Value) (count : Int)
  /-- The reset port (R200). -/
  | reset
deriving DecidableEq, Repr

/-- The state of one instance. -/
structure State where
  /-- `CFG`, read-only after construction (R29). -/
  cfg : LineConfig
  /-- `drv[SCL]` and `drv[SDA]` (R20). -/
  drv : Drives
  /-- The Protocol Engine's phase (R24). -/
  phase : Phase
  /-- `x[bit_i]` (R25). -/
  bitI : BitVec 3
  /-- `x[byte]` (R25). -/
  byteReg : Byte
  /-- `x[ack]`, 1 when the last acknowledgment window was acknowledged (R25, R28). -/
  ack : Bit
  /-- `x[byte_k]` (R25). -/
  byteK : BitVec 2
  /-- `x[val_i]` (R25); also the port `val_index` (D2). -/
  valI : BitVec 8
  /-- `x[val]` (R25). -/
  val : Value
  /-- `x[count]` (R25). -/
  count : BitVec 8
  /-- `RESULT` (R28, R173). -/
  result : Bit
  /-- `BUSY` (R28). -/
  busy : Bit
  /-- The tick count (R31). -/
  ticks : Nat
  /-- The call trace since reset, oldest first (R11, R31). -/
  trace : List Event
  /-- The caller's sequence, the space `VAL` (R32, R50). -/
  values : List Value
  /-- The model's own: the environment's contributions to SDA that a test bench has fixed for the samples to come,
  oldest first; past its end every sample is free (`Config.envSda`). -/
  envSda : List Bit
  /-- The model's own: how many resets the instance has seen, so that the environment after a reset is free again. -/
  resets : Nat
  /-- The model's own: the inputs offered and not yet taken, oldest first. -/
  inbox : List Input
deriving DecidableEq, Repr

/-- Why a step could fault. There is no reason: no operation of the block raises, traps or leaves a primitive list
unfinished (R105, R126, R170), so no one raises one of these and the type is empty. Safe: nothing stops by a fault. -/
inductive Fault where
deriving DecidableEq, Repr

/-- Why the model gives an input no meaning. Every one is ordered by a rule of the spec and leaves state and traces
unchanged (spec/95_test_vectors.md section 3.6). All are safe: the model stops where the hardware goes on. -/
inductive Refusal where
  /-- An operation whose meaning is not written yet, raised by an arm of `exec`. Safe. -/
  | notModelled (mnemonic : String)
  /-- R81, U15: `op` in `0xA .. 0xF`; raised when an operation word is fetched. Safe. -/
  | noSuchOperation (word : Word)
  /-- R81, U15: reserved bits set; raised when an operation word is fetched. Safe. -/
  | reservedBits (word : Word)
  /-- R127, D16: an engine operation called in a phase the table does not allow, naming the operation and the phase;
  raised by start, stop, write_bit, read_ack and write_byte. Safe: the hardware would perform the primitives. -/
  | outOfPhase (operation : Instr) (phase : Phase)
  /-- R127, U3: an engine operation called in an allowed phase with line states outside the table; raised by the same
  five. Safe. -/
  | wrongLineState (operation : Instr) (drv : Drives)
  /-- R127: a repeated start that is not at a byte boundary; raised by start. Safe. -/
  | notAtByteBoundary
  /-- R81, U5, X9: the first byte after a start has bit 0 set, a read transaction; raised by the write_byte,
  write_bit or read_ack that would make such a byte. Safe. -/
  | readRequest (byte : Byte)
  /-- R159, U13, X10: a frame requested while a call is in progress; raised by send_frame. Safe: the hardware ignores
  the request. -/
  | frameWhileBusy
  /-- R159, U14: a frame entered with the bus not idle; raised by send_frame. Safe. -/
  | busNotIdle (phase : Phase) (drv : Drives)
  /-- R158, U1, X1, X3: a count that is no `uint8`; raised by send_frame and by a frame request. Safe. -/
  | countNotUint8 (count : Int)
  /-- R51, U2, X2: a count above the number of values supplied; raised by send_frame. Safe. -/
  | countAboveValues (count : Nat) (supplied : Nat)
  /-- R200, U10, X15: reset asserted while a call is in progress; raised by the reset input. Safe. -/
  | resetDuringCall
deriving DecidableEq, Repr

/-- The state after reset (R35): both lines released, phase IDLE, `BUSY` 0, no ticks, an empty call trace. The
working registers and `RESULT` are unspecified there; they hold 0 (DESIGN CHOICE, logs 7 and 8). The configuration is
any that R29 allows (log 10). No value is supplied, no input is pending, no answer of the environment is fixed (DESIGN
CHOICE, logs 11, 2, 4). -/
def State.reset : State where
  cfg := Config.lines
  drv := Drives.released
  phase := .idle
  bitI := 0
  byteReg := 0
  ack := 0
  byteK := 0
  valI := 0
  val := 0
  count := 0
  result := 0
  busy := 0
  ticks := 0
  trace := []
  values := []
  envSda := []
  resets := 0
  inbox := []

end Sys2Proof.Machine
end

