-- ==== Sys2Proof/Machine/Flags.lean ====
section
/-!
DEFINITION. The flag computations: the acknowledgment flag and the result code (spec/10_state.md R28,
spec/41_protocol_engine.md R124, spec/60_exceptions.md R173).
-/

namespace Sys2Proof.Machine

/-- `x[ack]` from the sampled level: LOW is acknowledged (R73, R124). -/
def ackOf (sampled : Bit) : Bit := if sampled = 0 then 1 else 0

/-- `RESULT` code `OK`: the address byte was acknowledged (R173). -/
def resultOk : Bit := 0

/-- `RESULT` code `PERIPHERAL_ABSENT`: it was not (R173). -/
def resultPeripheralAbsent : Bit := 1

end Sys2Proof.Machine
end

