-- ==== Sys2Proof/Machine/Operands.lean ====
section
/-!
DEFINITION. Operand assembly: the address byte, the bytes of a value, the bits of a byte (spec/30_encoding.md section 2,
spec/20_memory.md section 2, spec/42_frame_transmitter.md R160). This is all the arithmetic the block does on data.
-/

namespace Sys2Proof.Machine

/-- `ADDR7`, the fixed 7-bit peripheral address (R7). -/
def addr7 : BitVec 7 := 0x08

/-- `RW`, the direction bit: write (R7). -/
def directionBit : Byte := 0

/-- `ADDR_BYTE = (zext_8(ADDR7) << 1) | RW`, the first byte of every frame (R75). -/
def addrByte : Byte := (addr7.zeroExtend 8 <<< 1) ||| directionBit

/-- Byte `k` of a value, `bits32(v)[8k+7 : 8k]` (R52, R76). -/
def valueByte (v : Value) (k : Nat) : Byte := v.extractLsb' (8 * k) 8

/-- The four bytes of a value in the order sent, least significant first (R52, R76). -/
def valueBytes (v : Value) : List Byte := [valueByte v 0, valueByte v 1, valueByte v 2, valueByte v 3]

/-- The value four bytes stand for, `B0 | B1 << 8 | B2 << 16 | B3 << 24` (R76). -/
def valueOfBytes (b0 b1 b2 b3 : Byte) : Value :=
  b0.zeroExtend 32 ||| (b1.zeroExtend 32 <<< 8) ||| (b2.zeroExtend 32 <<< 16) ||| (b3.zeroExtend 32 <<< 24)

/-- Bit `j` of a byte in the order sent, most significant first: `B[7 - j]` (R53, R125). -/
def byteBit (b : Byte) (j : Nat) : Bit := b.extractLsb' (7 - j) 1

/-- The eight bits of a byte in the order sent (R53). -/
def byteBits (b : Byte) : List Bit :=
  [byteBit b 0, byteBit b 1, byteBit b 2, byteBit b 3, byteBit b 4, byteBit b 5, byteBit b 6, byteBit b 7]

/-- The byte a group of bits stands for, most significant first (R78). -/
def byteOfBits (bits : List Bit) : Byte := bits.foldl (fun acc b => (acc <<< 1) ||| b.zeroExtend 8) 0

/-- The drive state that puts a bit on a line: released for 1, driven low for 0 (R83). -/
def driveOfBit (b : Bit) : Drive := if b = 1 then .releasedHigh else .drivenLow

end Sys2Proof.Machine
end

