-- ==== Sys2Proof/Machine/Observer.lean ====
section
/-!
DEFINITION. What a call trace says: the drive states and ticks it replays to, the transition trace (spec/00_scope.md R11),
the wire symbols (the observer of spec/30_encoding.md R78, run on `drv` with the ninth bit of a group taken from the
sample), and the samples it holds. Tools for stating properties; an operation reads only the
byte boundary of R127 and the first byte of R81.
-/

namespace Sys2Proof.Machine

/-- The primitives of `start()`, `DC.d.c.` (R121). -/
def startTrace : List Event :=
  [.releaseHigh .sda, .releaseHigh .scl, .delay, .driveLow .sda, .delay, .driveLow .scl, .delay]

/-- The primitives of `stop()`, `d.C.D.` (R122). -/
def stopTrace : List Event :=
  [.driveLow .sda, .delay, .releaseHigh .scl, .delay, .releaseHigh .sda, .delay]

/-- The primitive that puts a bit on the data line (R83). -/
def putBitEvent (b : Bit) : Event := if b = 1 then .releaseHigh .sda else .driveLow .sda

/-- A bit cell, `D.C.c.` or `d.C.c.` (R72). -/
def bitCell (b : Bit) : List Event :=
  [putBitEvent b, .delay, .releaseHigh .scl, .delay, .driveLow .scl, .delay]

/-- An acknowledgment cell, `D.C?.c.`, with the sampled level (R73). -/
def ackCell (sampled : Bit) : List Event :=
  [.releaseHigh .sda, .delay, .releaseHigh .scl, .sample .sda sampled, .delay, .driveLow .scl, .delay]

/-- The eight bit cells of a byte, most significant bit first (R74). -/
def byteCells (b : Byte) : List Event := (byteBits b).flatMap bitCell

/-- The primitives of `write_byte(B)`: eight bit cells, one acknowledgment cell (R74, R125). -/
def byteTrace (b : Byte) (sampled : Bit) : List Event := byteCells b ++ ackCell sampled

/-- The drive states after one primitive: only the two driving ones write (R20). -/
def applyEvent (d : Drives) : Event → Drives
  | .driveLow l => d.set l .drivenLow
  | .releaseHigh l => d.set l .releasedHigh
  | .sample _ _ => d
  | .delay => d

/-- The drive states a call trace leads to from `d`. -/
def replay (d : Drives) : List Event → Drives
  | [] => d
  | e :: es => replay (applyEvent d e) es

/-- How many ticks a call trace holds: its delays (R31). -/
def delayCount : List Event → Nat
  | [] => 0
  | .delay :: es => delayCount es + 1
  | .driveLow _ :: es => delayCount es
  | .releaseHigh _ :: es => delayCount es
  | .sample _ _ :: es => delayCount es

/-- The values the samples of a call trace returned, in order. -/
def samplesOf : List Event → List Bit
  | [] => []
  | .sample _ b :: es => b :: samplesOf es
  | .driveLow _ :: es => samplesOf es
  | .releaseHigh _ :: es => samplesOf es
  | .delay :: es => samplesOf es

/-- The letters of R11; `sample(SCL)` has none (R103). -/
def eventLetters : Event → List Char
  | .driveLow .sda => ['d']
  | .releaseHigh .sda => ['D']
  | .driveLow .scl => ['c']
  | .releaseHigh .scl => ['C']
  | .delay => ['.']
  | .sample .sda b => ['?', if b = 0 then '0' else '1']
  | .sample .scl _ => []

/-- A call trace in letters (R11). -/
def letters (es : List Event) : List Char := es.flatMap eventLetters

/-- One entry of the transition trace: `(tick, line, level)` (R11). -/
structure Transition where
  tick : Nat
  line : Line
  level : Drive
deriving DecidableEq, Repr

/-- The change of one line, if there is one: a primitive that finds the line already so makes none (R106). -/
def lineChange (d : Drives) (tick : Nat) (l : Line) (v : Drive) : List Transition :=
  if d.get l = v then [] else [⟨tick, l, v⟩]

/-- The transition trace of a call trace that starts at drive states `d` and tick count `tick` (R11). -/
def transitionsFrom (d : Drives) (tick : Nat) : List Event → List Transition
  | [] => []
  | .delay :: es => transitionsFrom d (tick + 1) es
  | .sample _ _ :: es => transitionsFrom d tick es
  | .driveLow l :: es => lineChange d tick l .drivenLow ++ transitionsFrom (d.set l .drivenLow) tick es
  | .releaseHigh l :: es => lineChange d tick l .releasedHigh ++ transitionsFrom (d.set l .releasedHigh) tick es

/-- Every transition is at least one tick after the one before it (R59). -/
def separated : List Transition → Bool
  | [] => true
  | [_] => true
  | a :: b :: ts => decide (a.tick + 1 ≤ b.tick) && separated (b :: ts)

/-- What the observer sees at a change of the lines (R78): START, STOP, or a clock rise with the bit the master puts
on the data line and, if the data line is sampled in that high phase before it changes, the sampled level. -/
inductive Mark where
  | start
  | stop
  | bit (driven : Bit) (sampled : Option Bit)
deriving DecidableEq, Repr

/-- The first sample of the data line after the clock rose with the data line at drive state `sda`, if one is taken
before the clock falls and before the data line changes: a change of it while the clock is high is a START or a STOP
(R70), and what is sampled after one is not the bit of that rise (R78). A primitive that changes nothing is no edge. -/
def sampledWhileHigh (sda : Drive) : List Event → Option Bit
  | [] => none
  | .sample .sda b :: _ => some b
  | .driveLow .scl :: _ => none
  | .driveLow .sda :: es => if sda = .drivenLow then sampledWhileHigh sda es else none
  | .releaseHigh .sda :: es => if sda = .releasedHigh then sampledWhileHigh sda es else none
  | .releaseHigh .scl :: es => sampledWhileHigh sda es
  | .sample .scl _ :: es => sampledWhileHigh sda es
  | .delay :: es => sampledWhileHigh sda es

/-- The mark one primitive makes at drive states `d`, `es` being what follows it (R78). -/
def eventMarks (d : Drives) (e : Event) (es : List Event) : List Mark :=
  match e with
  | .driveLow .sda => if d = ⟨.releasedHigh, .releasedHigh⟩ then [.start] else []
  | .releaseHigh .sda => if d = ⟨.releasedHigh, .drivenLow⟩ then [.stop] else []
  | .releaseHigh .scl => if d.scl = .drivenLow then [.bit d.sda.bit (sampledWhileHigh d.sda es)] else []
  | .driveLow .scl => []
  | .sample _ _ => []
  | .delay => []

/-- The marks of a call trace that starts at drive states `d` (R78). -/
def marksFrom (d : Drives) : List Event → List Mark
  | [] => []
  | e :: es => eventMarks d e es ++ marksFrom (applyEvent d e) es

/-- A wire symbol (R78): START, STOP, or a byte with its acknowledgment bit, 0 for `A` and 1 for `N`. -/
inductive Symbol where
  | start
  | stop
  | byte (value : Byte) (ackBit : Bit)
deriving DecidableEq, Repr

/-- Groups bits in nines after a START: eight make a byte, the ninth is its acknowledgment; a shorter group cut by a
STOP or a START is dropped (R78). `none` is no transaction open, `some g` the bits of the group so far. -/
def symbolsFrom (group : Option (List Bit)) : List Mark → List Symbol
  | [] => []
  | .start :: ms => .start :: symbolsFrom (some []) ms
  | .stop :: ms => .stop :: symbolsFrom none ms
  | .bit b q :: ms =>
    match group with
    | none => symbolsFrom none ms
    | some g =>
      if g.length = 8 then .byte (byteOfBits g) (q.getD b) :: symbolsFrom (some []) ms
      else symbolsFrom (some (g ++ [b])) ms

/-- What a call trace that starts on an idle bus puts on the wire (R78). -/
def observe (es : List Event) : List Symbol := symbolsFrom none (marksFrom Drives.released es)

/-- The bits on the wire since the last START or STOP mark, `n` before the list. -/
def bitsSinceMark (n : Nat) : List Mark → Nat
  | [] => n
  | .start :: ms => bitsSinceMark 0 ms
  | .stop :: ms => bitsSinceMark 0 ms
  | .bit _ _ :: ms => bitsSinceMark (n + 1) ms

/-- "At a byte boundary" (R127): no byte is under way, that is the bits since the last START are whole groups of nine. -/
def atByteBoundary (trace : List Event) : Bool :=
  bitsSinceMark 0 (marksFrom Drives.released trace) % 9 == 0

/-- The bits on the wire since the last START, as the master puts them, oldest first: `none` when there was no START, or
a STOP came after it. `group` is what stands before the marks. -/
def bitsSinceStart (group : Option (List Bit)) : List Mark → Option (List Bit)
  | [] => group
  | .start :: ms => bitsSinceStart (some []) ms
  | .stop :: ms => bitsSinceStart none ms
  | .bit b _ :: ms => bitsSinceStart (group.map (· ++ [b])) ms

/-- The bits since the last START of a call trace that starts on an idle bus (R78). -/
def openBits (trace : List Event) : Option (List Bit) := bitsSinceStart none (marksFrom Drives.released trace)

/-- The first eight bits on the wire after a START as a byte, if the cells that put `bits` after `trace` complete it with
bit 0 set, whichever operations put the bits before (R78, R81, U5). -/
def readRequested (trace : List Event) (bits : List Bit) : Option Byte :=
  match openBits trace with
  | none => none
  | some g => if g.length < 8 ∧ (g ++ bits)[7]? = some 1 then some (byteOfBits ((g ++ bits).take 8)) else none

/-- The first byte after a START that an operation performed after `trace` would give bit 0 set, if there is one (R81, U5):
the byte the observer reads, its eighth bit put by a bit cell or by the released data line of an acknowledgment cell
(R73, R78); and the operand of a `write_byte` that begins before that byte is complete, the first byte the program
writes. The other operations complete no such byte. -/
def askedRead (i : Instr) (trace : List Event) : Option Byte :=
  match i with
  | .writeBit b => readRequested trace [b]
  | .readAck => readRequested trace [1]
  | .writeByte b =>
    match openBits trace with
    | none => none
    | some g => if g.length < 8 ∧ b.extractLsb' 0 1 = 1 then some b else readRequested trace (byteBits b)
  | .driveLow _ => none
  | .releaseHigh _ => none
  | .sample _ => none
  | .delayBitTime => none
  | .start => none
  | .stop => none
  | .sendFrame _ => none

/-- A primitive with the value of a sample forgotten: what is left is what the master does (R153). -/
def eraseSample : Event → Event
  | .sample l _ => .sample l 0
  | .driveLow l => .driveLow l
  | .releaseHigh l => .releaseHigh l
  | .delay => .delay

end Sys2Proof.Machine
end

