-- ==== Sys2Proof/Machine/Ops.lean ====
section
/-!
DEFINITION. The named operations over the state: the four Line Driver primitives, the five Protocol Engine sequences and
the steps of a frame, as the pseudocode of spec/40_line_driver.md, spec/41_protocol_engine.md and
spec/42_frame_transmitter.md lists them, with no check: a layer calls the one below as it is. What an operation checks
first stands with its meaning. The abort entry of spec/60_exceptions.md R176 stands here once.
-/

namespace Sys2Proof.Machine

/-- `emit e` (R10, R11). -/
def emit (e : Event) (s : State) : State := { s with trace := s.trace ++ [e] }

/-- `drv[L] <- v`. -/
def setDrv (l : Line) (v : Drive) (s : State) : State := { s with drv := s.drv.set l v }

/-- `env[L]`, what the environment contributes to a line at this instant: 1 on the clock line (D19); on the data line
the answer a test bench has fixed, else the free value `Env(h)` (R23, U7). -/
def envContribution (l : Line) (s : State) : Bit :=
  match l with
  | .scl => 1
  | .sda => s.envSda.headD (Config.envSda s.resets s.trace)

/-- `Level(L) = drv[L] & env[L]` (R22); also the port `L_in` (R107). -/
def level (l : Line) (s : State) : Bit := (s.drv.get l).bit &&& envContribution l s

/-- The port `L_pull_low`, equal to `not drv[L]` (R107, D2). -/
def pullLow (l : Line) (s : State) : Bit := ~~~ (s.drv.get l).bit

/-- A sample of the data line uses up the answer a test bench has fixed for it. -/
def takeEnv (l : Line) (s : State) : State :=
  match l with
  | .scl => s
  | .sda => { s with envSda := s.envSda.tail }

/-- `drive_low(L)` (R101). -/
def driveLow (l : Line) (s : State) : State := setDrv l .drivenLow (emit (.driveLow l) s)

/-- `release_high(L)` (R102). -/
def releaseHigh (l : Line) (s : State) : State := setDrv l .releasedHigh (emit (.releaseHigh l) s)

/-- `sample(L)`: the value returned is `level l s`, and the event carries it (R103). -/
def sampleLine (l : Line) (s : State) : State := emit (.sample l (level l s)) (takeEnv l s)

/-- `delay_bit_time()` (R104). -/
def delayBitTime (s : State) : State := { emit .delay s with ticks := s.ticks + 1 }

/-- `release_high(SDA)` for 1, `drive_low(SDA)` for 0 (R83). -/
def putBit (b : Bit) (s : State) : State := if b = 1 then releaseHigh .sda s else driveLow .sda s

/-- `start()` (R121). -/
def startOp (s : State) : State :=
  let s := releaseHigh .sda s
  let s := releaseHigh .scl s
  let s := delayBitTime s
  let s := driveLow .sda s
  let s := delayBitTime s
  let s := driveLow .scl s
  let s := delayBitTime s
  { s with phase := .started }

/-- `stop()` (R122). -/
def stopOp (s : State) : State :=
  let s := { s with phase := .stopped }
  let s := driveLow .sda s
  let s := delayBitTime s
  let s := releaseHigh .scl s
  let s := delayBitTime s
  let s := releaseHigh .sda s
  let s := delayBitTime s
  { s with phase := .idle }

/-- `write_bit(b)` (R123). -/
def writeBitOp (b : Bit) (s : State) : State :=
  let s := putBit b s
  let s := delayBitTime s
  let s := releaseHigh .scl s
  let s := delayBitTime s
  let s := driveLow .scl s
  delayBitTime s

/-- `read_ack()`, whose result is `x[ack]` (R124). -/
def readAckOp (s : State) : State :=
  let s := releaseHigh .sda s
  let s := delayBitTime s
  let s := releaseHigh .scl s
  let sampled := level .sda s
  let s := sampleLine .sda s
  let s := delayBitTime s
  let s := driveLow .scl s
  let s := delayBitTime s
  { s with ack := ackOf sampled }

/-- One turn of the bit loop of `write_byte` (R125). -/
def writeByteBit (b : Byte) (s : State) (j : Nat) : State :=
  writeBitOp (byteBit b j) { s with bitI := BitVec.ofNat 3 j }

/-- `write_byte(B)`, whose result is `x[ack]` (R125). -/
def writeByteOp (b : Byte) (s : State) : State :=
  let s := { s with byteReg := b }
  let s := [0, 1, 2, 3, 4, 5, 6, 7].foldl (writeByteBit b) s
  let s := readAckOp s
  { s with phase := .byteActive }

/-- `MemRead(VAL, i, 4)`: element `i` of the caller's sequence, if there is one (R51); also the port `val_data` (D26). -/
def memRead (i : Nat) (s : State) : Option Value := s.values[i]?

/-- `x[val_i] <- i; x[val] <- MemRead(VAL, i, 4)`, the element read being `v` (R150). -/
def loadValue (i : Nat) (v : Value) (s : State) : State := { s with valI := BitVec.ofNat 8 i, val := v }

/-- One turn of the byte loop of `send_frame`: the result of `write_byte` is ignored (R150, R153). -/
def sendValueByte (s : State) (k : Nat) : State :=
  writeByteOp (valueByte s.val k) { s with byteK := BitVec.ofNat 2 k }

/-- The four bytes of the value in `x[val]` (R150). -/
def sendValue (s : State) : State := [0, 1, 2, 3].foldl sendValueByte s

/-- The value loop of `send_frame` from index `i` on, over the elements it reads (R150). -/
def sendValues (i : Nat) : List Value → State → State
  | [], s => s
  | v :: vs, s => sendValues (i + 1) vs (sendValue (loadValue i v s))

/-- Steps 1 and 2 of `send_frame` (R151). -/
def openFrame (count : Nat) (s : State) : State :=
  let s := { s with busy := 1 }
  let s := { s with count := BitVec.ofNat 8 count }
  let s := startOp s
  writeByteOp addrByte s

/-- The abort entry on No-Acknowledgment-On-Address: `stop()`, `RESULT <- 1`, `BUSY <- 0`, and the call is over
(R171, R176, R177). -/
def abortFrame (s : State) : State := { stopOp s with result := resultPeripheralAbsent, busy := 0 }

/-- Step 5 of `send_frame`: `stop()`, `RESULT <- 0`, `BUSY <- 0` (R150, R154). -/
def closeFrame (s : State) : State := { stopOp s with result := resultOk, busy := 0 }

/-- `send_frame(values, count)` (R150). The elements read are the first `count` of the sequence. -/
def sendFrameOp (count : Nat) (s : State) : State :=
  let s := openFrame count s
  if s.ack = 0 then abortFrame s else closeFrame (sendValues 0 (s.values.take count) s)

/-- An operation whose check has found a reason to refuse, or none (R81). -/
def guarded (why : Option Refusal) (after : State) : Host.Outcome State Fault Refusal :=
  match why with
  | some r => .refused r
  | none => .next after

/-- The reset action (R200, R35): both lines released at once, phase IDLE, `BUSY` 0, the traces emptied, the working
registers and `RESULT` at the values of `State.reset`. The configuration, the caller's sequence and what is offered
from outside are not the block's to change. -/
def resetAction (s : State) : State :=
  { State.reset with
    cfg := s.cfg
    values := s.values
    envSda := s.envSda
    resets := s.resets + 1
    inbox := s.inbox }

/-- Real time since reset is at least this, in the unit of `CFG.T_BIT`: a tick lasts at least one Bit-Time (R104, R216). -/
def elapsedAtLeast (s : State) : Nat := s.ticks * s.cfg.tBit

/-- An operation word put where the next step fetches its input. -/
def offerWord (w : Word) (s : State) : State := { s with inbox := .operation w :: s.inbox }

end Sys2Proof.Machine
end

