-- ==== Sys2Proof/Machine/FrameTransmitter.lean ====
section
/-!
DEFINITION. The meaning of the Frame Transmitter's one operation (spec/42_frame_transmitter.md R150) and what it refuses
before it begins: a call while one is in progress, a bus that is not idle, a count that is no `uint8`, a count above the
values supplied (R158, R159, R51).
-/

namespace Sys2Proof.Machine

/-- Bus idle: both lines released and phase IDLE (R33). -/
def busIdle (s : State) : Bool := decide (s.drv = Drives.released) && decide (s.phase = .idle)

/-- What `send_frame` refuses at entry, in this order (R159, R158, R51). -/
def frameRefusal (count : Nat) (s : State) : Option Refusal :=
  if s.busy = 1 then some .frameWhileBusy
  else if busIdle s = false then some (.busNotIdle s.phase s.drv)
  else if maxCount < count then some (.countNotUint8 count)
  else if s.values.length < count then some (.countAboveValues count s.values.length)
  else none

/-- `send_frame(values, count)`, the values being those of `VAL` (R150). -/
def execSendFrame (count : Nat) (s : State) : Host.Outcome State Fault Refusal :=
  guarded (frameRefusal count s) (sendFrameOp count s)

end Sys2Proof.Machine
end

