-- ==== Sys2Proof/Machine/LineDriver.lean ====
section
/-!
DEFINITION. The meanings of the Line Driver's four operations (spec/40_line_driver.md). The layer cannot fail and knows no
phase, so none of them checks anything (R100, R105).
-/

namespace Sys2Proof.Machine

/-- `drive_low(line)` (R101). -/
def execDriveLow (line : Line) (s : State) : Host.Outcome State Fault Refusal := .next (driveLow line s)

/-- `release_high(line)` (R102). -/
def execReleaseHigh (line : Line) (s : State) : Host.Outcome State Fault Refusal := .next (releaseHigh line s)

/-- `sample(line)`, either line (R103, D24). -/
def execSample (line : Line) (s : State) : Host.Outcome State Fault Refusal := .next (sampleLine line s)

/-- `delay_bit_time()` (R104). -/
def execDelayBitTime (s : State) : Host.Outcome State Fault Refusal := .next (delayBitTime s)

end Sys2Proof.Machine
end

