-- ==== Sys2Proof/Machine/ProtocolEngine.lean ====
section
/-!
DEFINITION. The meanings of the Protocol Engine's five operations (spec/41_protocol_engine.md). A call outside the table of
R127 is refused, naming the operation and the phase (D16); a call inside it performs the whole primitive list.
-/

namespace Sys2Proof.Machine

/-- R127 for `stop`, `write_bit`, `read_ack` and `write_byte`: phase STARTED or BYTE_ACTIVE, and the clock line low. -/
def transactionRefusal (i : Instr) (s : State) : Option Refusal :=
  if s.phase = .started ∨ s.phase = .byteActive then
    if s.drv.scl = .drivenLow then none else some (.wrongLineState i s.drv)
  else some (.outOfPhase i s.phase)

/-- R127 for `start`: from IDLE with both lines released, or from BYTE_ACTIVE at a byte boundary with the clock low
and the data line released. -/
def startRefusal (s : State) : Option Refusal :=
  match s.phase with
  | .idle => if s.drv = ⟨.releasedHigh, .releasedHigh⟩ then none else some (.wrongLineState .start s.drv)
  | .byteActive =>
    if s.drv = ⟨.drivenLow, .releasedHigh⟩ then
      if atByteBoundary s.trace then none else some .notAtByteBoundary
    else some (.wrongLineState .start s.drv)
  | .started => some (.outOfPhase .start .started)
  | .stopped => some (.outOfPhase .start .stopped)

/-- A first byte after `start` with bit 0 set asks for a read, which the engine does not do (R81, U5): the operation
that would make one is refused, whether it is `write_byte`, `write_bit` or `read_ack`. -/
def readRequestRefusal (i : Instr) (s : State) : Option Refusal := (askedRead i s.trace).map .readRequest

/-- `start()` (R121). -/
def execStart (s : State) : Host.Outcome State Fault Refusal := guarded (startRefusal s) (startOp s)

/-- `stop()` (R122). -/
def execStop (s : State) : Host.Outcome State Fault Refusal := guarded (transactionRefusal .stop s) (stopOp s)

/-- `write_bit(bit)` (R123). -/
def execWriteBit (bit : Bit) (s : State) : Host.Outcome State Fault Refusal :=
  guarded ((transactionRefusal (.writeBit bit) s).or (readRequestRefusal (.writeBit bit) s)) (writeBitOp bit s)

/-- `read_ack()` (R124). -/
def execReadAck (s : State) : Host.Outcome State Fault Refusal :=
  guarded ((transactionRefusal .readAck s).or (readRequestRefusal .readAck s)) (readAckOp s)

/-- `write_byte(byte)` (R125). -/
def execWriteByte (byte : Byte) (s : State) : Host.Outcome State Fault Refusal :=
  guarded ((transactionRefusal (.writeByte byte) s).or (readRequestRefusal (.writeByte byte) s)) (writeByteOp byte s)

end Sys2Proof.Machine
end

