-- ==== Sys2Proof/Machine/Dispatch.lean ====
section
/-!
DEFINITION. The meaning of every operation of spec/30_encoding.md R79, one arm per constructor of `Instr`.
-/

namespace Sys2Proof.Machine

def exec (i : Instr) (s : State) : Host.Outcome State Fault Refusal :=
  match i with
  | .driveLow line => Sys2Proof.Machine.execDriveLow line s
  | .releaseHigh line => Sys2Proof.Machine.execReleaseHigh line s
  | .sample line => Sys2Proof.Machine.execSample line s
  | .delayBitTime => Sys2Proof.Machine.execDelayBitTime s
  | .start => Sys2Proof.Machine.execStart s
  | .stop => Sys2Proof.Machine.execStop s
  | .writeBit bit => Sys2Proof.Machine.execWriteBit bit s
  | .readAck => Sys2Proof.Machine.execReadAck s
  | .writeByte byte => Sys2Proof.Machine.execWriteByte byte s
  | .sendFrame count => Sys2Proof.Machine.execSendFrame count s

end Sys2Proof.Machine
end

