-- ==== Sys2Proof/Machine/HostInterface.lean ====
section
/-!
DEFINITION. What the block does with one input of the host or of a test bench (spec/70_reset_and_hazards.md R218): an
operation word is decoded and performed, a frame request is checked and performed, a reset is performed.
-/

namespace Sys2Proof.Machine

/-- A word that names no operation is refused by the reason (R81). -/
def wordRefusal : DecodeError → Refusal
  | .noSuchOperation w => .noSuchOperation w
  | .reservedBits w => .reservedBits w

/-- An operation word (R79, R80, R81). -/
def serveOperation (w : Word) (s : State) : Host.Outcome State Fault Refusal :=
  match decode w with
  | .ok i => exec i s
  | .error e => .refused (wordRefusal e)

/-- A request of one frame: the caller's sequence becomes `VAL` and `send_frame` is performed (R218). A negative count
is no `uint8` (X3); one above 255 is refused by `send_frame` itself (R158). -/
def serveFrame (values : List Value) (count : Int) (s : State) : Host.Outcome State Fault Refusal :=
  if count < 0 then .refused (.countNotUint8 count)
  else exec (.sendFrame count.toNat) { s with values := values }

/-- The reset port: refused while a call is in progress (R200, X15). -/
def serveReset (s : State) : Host.Outcome State Fault Refusal :=
  if s.busy = 1 then .refused .resetDuringCall else .next (resetAction s)

/-- One input. -/
def serve (input : Input) (s : State) : Host.Outcome State Fault Refusal :=
  match input with
  | .operation w => serveOperation w s
  | .frame values count => serveFrame values count s
  | .reset => serveReset s

/-- Takes the oldest input and serves it; with none pending the block waits and nothing changes (R184, R201). -/
def takeInput (s : State) : Host.Outcome State Fault Refusal :=
  match s.inbox with
  | [] => .next s
  | input :: rest => serve input { s with inbox := rest }

end Sys2Proof.Machine
end

