-- ==== Sys2Proof/Machine/Step.lean ====
section
/-!
DEFINITION. One step of the machine: one input taken and served to its end (spec/70_reset_and_hazards.md R217, R218). The
block is one sequential agent and every operation runs to completion before the next begins (spec/20_memory.md R58).
-/

namespace Sys2Proof.Machine

/-- One step. -/
def step (s : State) : Host.Outcome State Fault Refusal := takeInput s

/-- The state with one instruction, given as the table numbers its bits, where the next step fetches it. -/
def State.withFetchWord (s : State) (nbits w : Nat) : State := offerWord (tableWord nbits w) s

end Sys2Proof.Machine
end

