-- ==== Sys2Proof/Safety.lean ====
section
/-!
DEFINITION. What a safe state and a safe run are, in the terms the claims use: the bookkeeping accounts for the lines and
the time, no operation boundary falls inside an operation, the phase agrees with the lines, transitions are at least one
tick apart, and a machine driven by its host alone rests on an idle bus.
-/

namespace Sys2Proof.Machine

/-- The bookkeeping is complete (R20, R31): the drive states are those the call trace leads to from released lines, and
the tick count is the number of its delays. Nothing moved a line or the time without an event. -/
abbrev Bookkeeping (s : State) : Prop :=
  s.drv = replay Drives.released s.trace ∧ s.ticks = delayCount s.trace

/-- What holds at every operation boundary: the phase is not STOPPED (R24), no call is in progress (R28, a call is one
step here), the configuration is one R29 allows. -/
abbrev AtRest (s : State) : Prop :=
  s.phase ≠ .stopped ∧ s.busy = 0 ∧ s.cfg.ok = true

/-- The phase agrees with the lines (R33, R34): IDLE with both released, STARTED and BYTE_ACTIVE with the clock low. -/
def phaseMatchesLines (s : State) : Bool :=
  match s.phase with
  | .idle => decide (s.drv = Drives.released)
  | .started => decide (s.drv.scl = .drivenLow)
  | .byteActive => decide (s.drv.scl = .drivenLow)
  | .stopped => false

/-- The transition trace since reset (R11, R31). -/
def transitions (s : State) : List Transition := transitionsFrom Drives.released 0 s.trace

/-- The transitions so far are at least one tick apart and a delay has followed the last one, so that the next one may
come at once (R59, R128: every operation of layer 2 ends with a delay). -/
abbrev Spaced (s : State) : Prop :=
  separated (transitions s) = true ∧ ∀ x ∈ transitions s, x.tick < s.ticks

/-- No operation word is pending: what is pending is what the host itself can ask for (R80, R218). -/
def hostOnly (s : State) : Bool :=
  s.inbox.all fun input =>
    match input with
    | .operation _ => false
    | .frame _ _ => true
    | .reset => true

/-- A machine that only its host drives, between two runs (R217): the bus is idle, no call is in progress, every
transition so far kept its distance. -/
abbrev HostDriven (s : State) : Prop :=
  hostOnly s = true ∧ busIdle s = true ∧ s.busy = 0 ∧ Bookkeeping s ∧ Spaced s

/-- No first byte with bit 0 set stands on the wire after the last START, if a transaction is open (R81, U5). -/
def asksForNoRead (s : State) : Bool :=
  match openBits s.trace with
  | none => true
  | some g => !(decide (g[7]? = some 1))

/-- The table of R127 on entry: the phases and line states from which each Protocol Engine operation has a meaning.
What would make a first byte with bit 0 set is outside it (R81, U5). The other operations have no row there. -/
def engineEntry (i : Instr) (s : State) : Bool :=
  match i with
  | .start =>
    (decide (s.phase = .idle) && decide (s.drv = ⟨.releasedHigh, .releasedHigh⟩)) ||
    (decide (s.phase = .byteActive) && atByteBoundary s.trace && decide (s.drv = ⟨.drivenLow, .releasedHigh⟩))
  | .stop => decide (s.phase = .started ∨ s.phase = .byteActive) && decide (s.drv.scl = .drivenLow)
  | .writeBit _ =>
    decide (s.phase = .started ∨ s.phase = .byteActive) && decide (s.drv.scl = .drivenLow) &&
    (askedRead i s.trace).isNone
  | .readAck =>
    decide (s.phase = .started ∨ s.phase = .byteActive) && decide (s.drv.scl = .drivenLow) &&
    (askedRead i s.trace).isNone
  | .writeByte _ =>
    decide (s.phase = .started ∨ s.phase = .byteActive) && decide (s.drv.scl = .drivenLow) &&
    (askedRead i s.trace).isNone
  | .driveLow _ => false
  | .releaseHigh _ => false
  | .sample _ => false
  | .delayBitTime => false
  | .sendFrame _ => false

/-- The table of R127 on exit: the phase. -/
def engineExitPhase (i : Instr) (s : State) : Phase :=
  match i with
  | .start => .started
  | .stop => .idle
  | .writeByte _ => .byteActive
  | .writeBit _ => s.phase
  | .readAck => s.phase
  | .driveLow _ => s.phase
  | .releaseHigh _ => s.phase
  | .sample _ => s.phase
  | .delayBitTime => s.phase
  | .sendFrame _ => .idle

/-- The table of R127 on exit: the drive states, `(SCL, SDA)`. -/
def engineExitDrives (i : Instr) (s : State) : Drives :=
  match i with
  | .start => ⟨.drivenLow, .drivenLow⟩
  | .stop => ⟨.releasedHigh, .releasedHigh⟩
  | .writeBit b => ⟨.drivenLow, if b = 1 then .releasedHigh else .drivenLow⟩
  | .readAck => ⟨.drivenLow, .releasedHigh⟩
  | .writeByte _ => ⟨.drivenLow, .releasedHigh⟩
  | .driveLow _ => s.drv
  | .releaseHigh _ => s.drv
  | .sample _ => s.drv
  | .delayBitTime => s.drv
  | .sendFrame _ => ⟨.releasedHigh, .releasedHigh⟩

/-- Primitives performed by each Protocol Engine operation (R128). -/
def enginePrimitives : Instr → Nat
  | .start => 7
  | .stop => 6
  | .writeBit _ => 6
  | .readAck => 7
  | .writeByte _ => 55
  | .driveLow _ => 1
  | .releaseHigh _ => 1
  | .sample _ => 1
  | .delayBitTime => 1
  | .sendFrame _ => 0

/-- Ticks of each Protocol Engine operation (R128, R215). -/
def engineTicks : Instr → Nat
  | .start => 3
  | .stop => 3
  | .writeBit _ => 3
  | .readAck => 3
  | .writeByte _ => 27
  | .driveLow _ => 0
  | .releaseHigh _ => 0
  | .sample _ => 0
  | .delayBitTime => 1
  | .sendFrame _ => 0

/-- What `send_frame` asks for at entry (R150, R158, R159, R51): no call in progress, an idle bus, a count that fits
the port and is at most the number of values supplied. -/
abbrev FrameEntry (count : Nat) (s : State) : Prop :=
  s.busy = 0 ∧ s.drv = ⟨.releasedHigh, .releasedHigh⟩ ∧ s.phase = .idle ∧ count ≤ 255 ∧ count ≤ s.values.length

/-- A program, a list of operations performed top to bottom (R82), stopping at the first that is refused. -/
def runOperations : List Instr → State → Host.Outcome State Fault Refusal
  | [], s => .next s
  | i :: is, s =>
    match exec i s with
    | .next t => runOperations is t
    | .fault r => .fault r
    | .refused r => .refused r

/-- One frame written as a program of Protocol Engine operations (R77, R150): without values when the address byte is
not acknowledged (`result` 1), else with the four bytes of each value. -/
def frameProgram (result : Bit) (values : List Value) : List Instr :=
  if result = 1 then [.start, .writeByte 0x10, .stop]
  else [.start, .writeByte 0x10] ++ (values.flatMap valueBytes).map .writeByte ++ [.stop]

/-- What no operation of the block touches: the configuration (R29), every element of the caller's sequence (R162), and
what is offered from outside. -/
abbrev SameOutside (s t : State) : Prop :=
  t.cfg = s.cfg ∧ (∀ i, memRead i t = memRead i s) ∧ t.resets = s.resets ∧ t.inbox = s.inbox

end Sys2Proof.Machine
end

