-- ==== Sys2Proof/Certificates/Slice0/Obligations.lean ====
section
/-!
DEFINITION. The statements for the provers, each a formalisation of numbered rules of spec/ (its docstring names them).
Where a statement gives the whole next state as a record update of `s`, every field it does not name is unchanged: that
is its frame.
-/

open Sys2Proof Sys2Proof.Machine

/-! ## Line Driver -/

/-- R101: `drive_low(L)` writes `drv[L]` and one event, nothing else, from every state; the level of the line is
then 0 whatever the environment contributes. A line that is low already makes no transition, any other makes one. -/
def Obligations.DriveLowPullsOneLine : Prop :=
  decode 0x0000 = .ok (.driveLow .scl) ∧ decode 0x0001 = .ok (.driveLow .sda) ∧
  ∀ s : State,
    exec (.driveLow .scl) s =
      .next { s with drv := ⟨.drivenLow, s.drv.sda⟩, trace := s.trace ++ [.driveLow .scl] } ∧
    exec (.driveLow .sda) s =
      .next { s with drv := ⟨s.drv.scl, .drivenLow⟩, trace := s.trace ++ [.driveLow .sda] } ∧
    ∀ l, ∃ t, exec (.driveLow l) s = .next t ∧ level l t = 0 ∧
      transitionsFrom s.drv s.ticks [.driveLow l] =
        if s.drv.get l = .drivenLow then [] else [⟨s.ticks, l, .drivenLow⟩]

/-- R102: `release_high(L)` writes `drv[L]` and one event, nothing else, from every state; the level of the line is
then what the environment contributes. A line released already makes no transition, any other makes one. -/
def Obligations.ReleaseHighFreesOneLine : Prop :=
  decode 0x1000 = .ok (.releaseHigh .scl) ∧ decode 0x1001 = .ok (.releaseHigh .sda) ∧
  ∀ s : State,
    exec (.releaseHigh .scl) s =
      .next { s with drv := ⟨.releasedHigh, s.drv.sda⟩, trace := s.trace ++ [.releaseHigh .scl] } ∧
    exec (.releaseHigh .sda) s =
      .next { s with drv := ⟨s.drv.scl, .releasedHigh⟩, trace := s.trace ++ [.releaseHigh .sda] } ∧
    ∀ l, ∃ t, exec (.releaseHigh l) s = .next t ∧ level l t = envContribution l t ∧
      transitionsFrom s.drv s.ticks [.releaseHigh l] =
        if s.drv.get l = .releasedHigh then [] else [⟨s.ticks, l, .releasedHigh⟩]

/-- R103: `sample(L)` returns `drv[L] & env[L]` and writes nothing of the block. The model's choices: the result
stands in the event (log 17); a sample of the clock line is an event of the call trace, without a letter (log 16);
`env[SCL]` is 1 (D19, log 5); `env[SDA]` is the test bench's fixed answer, which is used up (log 4), else the free
value of the history (log 3). -/
def Obligations.SampleReturnsTheLevel : Prop :=
  decode 0x2000 = .ok (.sample .scl) ∧ decode 0x2001 = .ok (.sample .sda) ∧
  ∀ s : State,
    exec (.sample .scl) s = .next { s with trace := s.trace ++ [.sample .scl s.drv.scl.bit] } ∧
    exec (.sample .sda) s =
      .next { s with
        trace := s.trace ++
          [.sample .sda (s.drv.sda.bit &&& s.envSda.headD (Config.envSda s.resets s.trace))]
        envSda := s.envSda.tail }

/-- R104: `delay_bit_time()` advances the tick count by one and writes nothing else; real time advances by at least
one Bit-Time ("at least" is the spec's own reading, D5). -/
def Obligations.DelayAdvancesOneTick : Prop :=
  decode 0x3000 = .ok .delayBitTime ∧
  ∀ s : State, ∃ t,
    exec .delayBitTime s = .next t ∧
    t = { s with ticks := s.ticks + 1, trace := s.trace ++ [.delay] } ∧
    elapsedAtLeast t = elapsedAtLeast s + s.cfg.tBit

/-- R22 with R23: the level of a line is its drive state and the environment's contribution (the and-composition is
the spec's from general knowledge, log 6): 0 when the master drives it low, the environment's contribution when it
has released it; and the clock line's level is the master's own (`env[SCL]` is 1: D19, log 5). -/
def Obligations.LevelIsTheWiredAnd : Prop :=
  ∀ s : State,
    (∀ l, level l s = (s.drv.get l).bit &&& envContribution l s) ∧
    (∀ l, s.drv.get l = .drivenLow → level l s = 0) ∧
    (∀ l, s.drv.get l = .releasedHigh → level l s = envContribution l s) ∧
    level .scl s = s.drv.scl.bit

/-! ## Protocol Engine -/

/-- R121: what `start` does from IDLE with both lines released and from a byte boundary (the model's reading of
"between bytes", log 13): its primitive list, the two releases in the spec's order (D6, log 19), and its
transitions. -/
def Obligations.StartBuildsTheStartCondition : Prop :=
  decode 0x4000 = .ok .start ∧
  ∀ s : State,
    ((s.phase = .idle ∧ s.drv = ⟨.releasedHigh, .releasedHigh⟩) ∨
      (s.phase = .byteActive ∧ atByteBoundary s.trace = true ∧ s.drv = ⟨.drivenLow, .releasedHigh⟩)) →
    exec .start s =
      .next { s with
        drv := ⟨.drivenLow, .drivenLow⟩
        phase := .started
        ticks := s.ticks + 3
        trace := s.trace ++
          [.releaseHigh .sda, .releaseHigh .scl, .delay, .driveLow .sda, .delay, .driveLow .scl, .delay] } ∧
    (s.phase = .idle →
      transitionsFrom s.drv s.ticks
          [.releaseHigh .sda, .releaseHigh .scl, .delay, .driveLow .sda, .delay, .driveLow .scl, .delay] =
        [⟨s.ticks + 1, .sda, .drivenLow⟩, ⟨s.ticks + 2, .scl, .drivenLow⟩]) ∧
    (s.phase = .byteActive →
      transitionsFrom s.drv s.ticks
          [.releaseHigh .sda, .releaseHigh .scl, .delay, .driveLow .sda, .delay, .driveLow .scl, .delay] =
        [⟨s.ticks, .scl, .releasedHigh⟩, ⟨s.ticks + 1, .sda, .drivenLow⟩, ⟨s.ticks + 2, .scl, .drivenLow⟩])

/-- R122: what `stop` does from STARTED or BYTE_ACTIVE with the clock low, whatever the data line and `x[ack]` are;
its transitions with the data line released (after a byte) and with the data line low (right after `start`). The
phase STOPPED holds inside the call only (R24). -/
def Obligations.StopBuildsTheStopCondition : Prop :=
  decode 0x5000 = .ok .stop ∧
  ∀ s : State, (s.phase = .started ∨ s.phase = .byteActive) → s.drv.scl = .drivenLow →
    exec .stop s =
      .next { s with
        drv := ⟨.releasedHigh, .releasedHigh⟩
        phase := .idle
        ticks := s.ticks + 3
        trace := s.trace ++
          [.driveLow .sda, .delay, .releaseHigh .scl, .delay, .releaseHigh .sda, .delay] } ∧
    (s.drv.sda = .releasedHigh →
      transitionsFrom s.drv s.ticks
          [.driveLow .sda, .delay, .releaseHigh .scl, .delay, .releaseHigh .sda, .delay] =
        [⟨s.ticks, .sda, .drivenLow⟩, ⟨s.ticks + 1, .scl, .releasedHigh⟩, ⟨s.ticks + 2, .sda, .releasedHigh⟩]) ∧
    (s.drv.sda = .drivenLow →
      transitionsFrom s.drv s.ticks
          [.driveLow .sda, .delay, .releaseHigh .scl, .delay, .releaseHigh .sda, .delay] =
        [⟨s.ticks + 1, .scl, .releasedHigh⟩, ⟨s.ticks + 2, .sda, .releasedHigh⟩])

/-- R123: what `write_bit(b)` does from STARTED or BYTE_ACTIVE with the clock low, where it makes no first byte with
bit 0 set (R81, log 14: ReadRequestIsRefused); its last delay is the spec's own reading (D7, log 19). -/
def Obligations.WriteBitMakesOneBitCell : Prop :=
  decode 0x6000 = .ok (.writeBit 0) ∧ decode 0x6001 = .ok (.writeBit 1) ∧
  ∀ (b : Bit) (s : State), (s.phase = .started ∨ s.phase = .byteActive) → s.drv.scl = .drivenLow →
    askedRead (.writeBit b) s.trace = none →
    exec (.writeBit b) s =
      .next { s with
        drv := ⟨.drivenLow, if b = 1 then .releasedHigh else .drivenLow⟩
        ticks := s.ticks + 3
        trace := s.trace ++
          [if b = 1 then .releaseHigh .sda else .driveLow .sda, .delay, .releaseHigh .scl, .delay, .driveLow .scl,
            .delay] }

/-- R124: what `read_ack` does from STARTED or BYTE_ACTIVE with the clock low, where its released data line makes no
first byte with bit 0 set (R81, log 14: ReadRequestIsRefused), the sample standing where D8 puts it (log 19). The
sampled bit `b` is the environment's answer after the clock was released (logs 3 and 4); `x[ack]`, the result (log
17), is 1 exactly when it is 0. -/
def Obligations.ReadAckSamplesOnce : Prop :=
  decode 0x7000 = .ok .readAck ∧
  ∀ s : State, (s.phase = .started ∨ s.phase = .byteActive) → s.drv.scl = .drivenLow →
    askedRead .readAck s.trace = none →
    ∃ b : Bit,
      b = s.envSda.headD (Config.envSda s.resets (s.trace ++ [.releaseHigh .sda, .delay, .releaseHigh .scl])) ∧
      exec .readAck s =
        .next { s with
          drv := ⟨.drivenLow, .releasedHigh⟩
          ack := if b = 0 then 1 else 0
          ticks := s.ticks + 3
          trace := s.trace ++
            [.releaseHigh .sda, .delay, .releaseHigh .scl, .sample .sda b, .delay, .driveLow .scl, .delay]
          envSda := s.envSda.tail }

/-- R125: what `write_byte(B)` does from STARTED or BYTE_ACTIVE with the clock low, where it makes no first byte
with bit 0 set (R81, log 14: ReadRequestIsRefused): the eight bit cells `B[7] .. B[0]`, the acknowledgment cell, and
what it leaves in the registers (the model's choices: the answer of the environment, logs 3 and 4, and registers
that keep what was last written, log 9). -/
def Obligations.WriteByteMakesNineCells : Prop :=
  decode 0x8000 = .ok (.writeByte 0x00) ∧ decode 0x8010 = .ok (.writeByte 0x10) ∧
  decode 0x80FF = .ok (.writeByte 0xFF) ∧
  ∀ (B : Byte) (s : State), (s.phase = .started ∨ s.phase = .byteActive) → s.drv.scl = .drivenLow →
    askedRead (.writeByte B) s.trace = none →
    ∃ (cells : List Event) (b : Bit),
      cells = [7, 6, 5, 4, 3, 2, 1, 0].flatMap (fun i => bitCell (B.extractLsb' i 1)) ∧
      b = s.envSda.headD
        (Config.envSda s.resets (s.trace ++ cells ++ [.releaseHigh .sda, .delay, .releaseHigh .scl])) ∧
      exec (.writeByte B) s =
        .next { s with
          drv := ⟨.drivenLow, .releasedHigh⟩
          phase := .byteActive
          bitI := 7
          byteReg := B
          ack := if b = 0 then 1 else 0
          ticks := s.ticks + 27
          trace := s.trace ++ cells ++
            [.releaseHigh .sda, .delay, .releaseHigh .scl, .sample .sda b, .delay, .driveLow .scl, .delay]
          envSda := s.envSda.tail }

/-- R127, derived by the spec from the primitive lists, with R81's read request (logs 12, 13, 14; D16): inside the
table every engine operation completes with the phase and the drive states of the table; outside it every one is
refused. -/
def Obligations.EngineKeepsItsTable : Prop :=
  ∀ (i : Instr) (s : State), i.layer = .protocolEngine →
    (engineEntry i s = true →
      ∃ t, exec i s = .next t ∧ t.phase = engineExitPhase i s ∧ t.drv = engineExitDrives i s) ∧
    (engineEntry i s = false → ∃ r, exec i s = .refused r)

/-- R127: a Protocol Engine operation outside the table is refused. A refusal for the phase names the operation and
the phase (D16). The model's choices: a refusal for the lines names the operation and the drive states, and the
checks come in the order phase, lines, byte boundary (log 12); what a byte boundary is (log 13). -/
def Obligations.EngineRefusalsNameTheirReason : Prop :=
  ∀ s : State,
    ((s.phase = .started ∨ s.phase = .stopped) → exec .start s = .refused (.outOfPhase .start s.phase)) ∧
    (∀ i, i.layer = .protocolEngine → i ≠ .start → (s.phase = .idle ∨ s.phase = .stopped) →
      exec i s = .refused (.outOfPhase i s.phase)) ∧
    (∀ i, i.layer = .protocolEngine → i ≠ .start → (s.phase = .started ∨ s.phase = .byteActive) →
      s.drv.scl = .releasedHigh → exec i s = .refused (.wrongLineState i s.drv)) ∧
    (s.phase = .idle → s.drv ≠ ⟨.releasedHigh, .releasedHigh⟩ →
      exec .start s = .refused (.wrongLineState .start s.drv)) ∧
    (s.phase = .byteActive → s.drv ≠ ⟨.drivenLow, .releasedHigh⟩ →
      exec .start s = .refused (.wrongLineState .start s.drv)) ∧
    (s.phase = .byteActive → s.drv = ⟨.drivenLow, .releasedHigh⟩ → atByteBoundary s.trace = false →
      exec .start s = .refused .notAtByteBoundary)

/-- R81, U5: what would make a first byte after a START with bit 0 set is refused: a `write_byte` of such a byte
before the first byte is complete, and any operation whose cell would be the eighth on the wire and carry 1, an
acknowledgment cell with its released data line among them. Everything else completes. What the first byte is and
which byte the refusal names is the model's reading (log 14). The clauses on `x[byte]` after the operation rest on
log 9. -/
def Obligations.ReadRequestIsRefused : Prop :=
  ∀ s : State, (s.phase = .started ∨ s.phase = .byteActive) → s.drv.scl = .drivenLow →
    (∀ (B : Byte) (g : List Bit), openBits s.trace = some g → g.length < 8 →
      (B.extractLsb' 0 1 = 1 → exec (.writeByte B) s = .refused (.readRequest B)) ∧
      (B.extractLsb' 0 1 = 0 → (g ++ byteBits B)[7]? = some 1 →
        exec (.writeByte B) s = .refused (.readRequest (byteOfBits ((g ++ byteBits B).take 8)))) ∧
      (B.extractLsb' 0 1 = 0 → (g ++ byteBits B)[7]? = some 0 →
        ∃ t, exec (.writeByte B) s = .next t ∧ t.byteReg = B)) ∧
    (∀ g : List Bit, openBits s.trace = some g → g.length = 7 →
      exec (.writeBit 1) s = .refused (.readRequest (byteOfBits (g ++ [1]))) ∧
      exec .readAck s = .refused (.readRequest (byteOfBits (g ++ [1]))) ∧
      ∃ t, exec (.writeBit 0) s = .next t) ∧
    (∀ (b : Bit) (g : List Bit), openBits s.trace = some g → g.length < 7 →
      (∃ t, exec (.writeBit b) s = .next t) ∧ ∃ t, exec .readAck s = .next t) ∧
    (∀ (B : Byte) (b : Bit), (openBits s.trace = none ∨ ∃ g, openBits s.trace = some g ∧ 8 ≤ g.length) →
      (∃ t, exec (.writeByte B) s = .next t ∧ t.byteReg = B) ∧ (∃ t, exec (.writeBit b) s = .next t) ∧
      ∃ t, exec .readAck s = .next t)

/-- R128, derived by the spec: each engine operation performs the table's number of primitives, of which the
table's number are delays; the first is not a delay and the last is. -/
def Obligations.EngineCost : Prop :=
  ∀ (i : Instr) (s : State), i.layer = .protocolEngine → engineEntry i s = true →
    ∃ t w, exec i s = .next t ∧ t.trace = s.trace ++ w ∧ w.length = enginePrimitives i ∧
      delayCount w = engineTicks i ∧ t.ticks = s.ticks + engineTicks i ∧
      w.head? ≠ some .delay ∧ w.getLast? = some .delay

/-- R70, and R71 which the spec derives: what each engine operation puts on the wire, as the observer run on `drv`
sees it (log 23). The data line changes while the clock is high in `start` and in `stop` only, once in each. -/
def Obligations.OnlyStartAndStopMoveDataWhileClockHigh : Prop :=
  ∀ (i : Instr) (s : State), i.layer = .protocolEngine → engineEntry i s = true →
    ∃ t w, exec i s = .next t ∧ t.trace = s.trace ++ w ∧
      (i = .start → s.phase = .idle → marksFrom s.drv w = [.start]) ∧
      (i = .start → s.phase = .byteActive → marksFrom s.drv w = [.bit 1 none, .start]) ∧
      (i = .stop → marksFrom s.drv w = [.bit 0 none, .stop]) ∧
      (∀ b, i = .writeBit b → marksFrom s.drv w = [.bit b none]) ∧
      (i = .readAck → ∃ a, samplesOf w = [a] ∧ marksFrom s.drv w = [.bit 1 (some a)]) ∧
      (∀ B, i = .writeByte B → ∃ a, samplesOf w = [a] ∧
        marksFrom s.drv w =
          ([7, 6, 5, 4, 3, 2, 1, 0].map fun j => Mark.bit (B.extractLsb' j 1) none) ++ [.bit 1 (some a)])

/-- R74, R78: the wire observer, run on `drv` (D25, log 23), reads `write_byte(B)` as the one byte `B` with the
sampled acknowledgment bit, and `x[ack]` is 1 exactly when that bit is 0. -/
def Obligations.WriteByteReadsAsItsByte : Prop :=
  ∀ (B : Byte) (s : State), engineEntry (.writeByte B) s = true →
    ∃ t w a, exec (.writeByte B) s = .next t ∧ t.trace = s.trace ++ w ∧ samplesOf w = [a] ∧
      symbolsFrom (some []) (marksFrom s.drv w) = [.byte B a] ∧ (t.ack = 1 ↔ a = 0)

/-- R127 ("between bytes", log 13): right after a byte that began at a byte boundary a repeated start is accepted. -/
def Obligations.RepeatedStartFollowsAByte : Prop :=
  ∀ (B : Byte) (s : State), Bookkeeping s → atByteBoundary s.trace = true → engineEntry (.writeByte B) s = true →
    ∃ t u, exec (.writeByte B) s = .next t ∧ exec .start t = .next u ∧ u.phase = .started

/-! ## Operand assembly -/

/-- R75: the address byte. -/
def Obligations.AddressByteIsSixteen : Prop :=
  addrByte = 0x10 ∧ addrByte.extractLsb' 1 7 = (0x08 : BitVec 7) ∧ addrByte.extractLsb' 0 1 = (0 : BitVec 1)

/-- R76: the bytes of a value, and that they give the signed value back. -/
def Obligations.ValueBytesRoundTrip : Prop :=
  (∀ v : Value,
    valueBytes v = [v.extractLsb' 0 8, v.extractLsb' 8 8, v.extractLsb' 16 8, v.extractLsb' 24 8] ∧
    valueOfBytes (valueByte v 0) (valueByte v 1) (valueByte v 2) (valueByte v 3) = v) ∧
  (∀ n : Int, -2 ^ 31 ≤ n → n < 2 ^ 31 →
    (valueOfBytes (valueByte (bits32 n) 0) (valueByte (bits32 n) 1) (valueByte (bits32 n) 2)
      (valueByte (bits32 n) 3)).toInt = n)

/-- R160's corner values and R76's two examples. -/
def Obligations.ValueBytesOfCornerValues : Prop :=
  valueBytes (bits32 (-1)) = [0xFF, 0xFF, 0xFF, 0xFF] ∧
  valueBytes (bits32 (-2 ^ 31)) = [0x00, 0x00, 0x00, 0x80] ∧
  valueBytes (bits32 (2 ^ 31 - 1)) = [0xFF, 0xFF, 0xFF, 0x7F] ∧
  valueBytes (bits32 0) = [0x00, 0x00, 0x00, 0x00] ∧
  valueBytes (bits32 305419896) = [0x78, 0x56, 0x34, 0x12]

/-- R53, derived by the spec: the order of the 32 payload bits of a value on the wire. -/
def Obligations.PayloadBitOrder : Prop :=
  ∀ v : Value, (valueBytes v).flatMap byteBits =
    [7, 6, 5, 4, 3, 2, 1, 0, 15, 14, 13, 12, 11, 10, 9, 8, 23, 22, 21, 20, 19, 18, 17, 16, 31, 30, 29, 28, 27, 26, 25,
      24].map fun i => v.extractLsb' i 1

/-! ## Frame Transmitter -/

/-- R150, R217 (derived by the spec; the register `RESULT` is the spec's own, D11): from its entry conditions
`send_frame` completes with the bus idle and `BUSY` 0, `RESULT` is the bit sampled in the address byte's
acknowledgment cell, and nothing outside is touched. That `x[count]` still holds the count after the call, where R25
calls it dead, is the model's choice (log 9). -/
def Obligations.SendFrameRunsToItsEnd : Prop :=
  ∀ (n : Nat) (s : State), FrameEntry n s →
    ∃ t w, exec (.sendFrame n) s = .next t ∧ t.trace = s.trace ++ w ∧
      t.drv = ⟨.releasedHigh, .releasedHigh⟩ ∧ t.phase = .idle ∧ t.busy = 0 ∧ t.count = BitVec.ofNat 8 n ∧
      (samplesOf w).head? = some t.result ∧ SameOutside s t

/-- R152, R171, R176: the address byte not acknowledged. The whole next state, which depends on no value. The
environment's answer is written as the model supplies it (logs 3 and 4), the working registers as the pseudocode
leaves them (log 9). -/
def Obligations.AbsentPeripheralEndsTheFrame : Prop :=
  ∀ (n : Nat) (s : State), FrameEntry n s →
    s.envSda.headD (Config.envSda s.resets
      (s.trace ++ startTrace ++ byteCells 0x10 ++ [.releaseHigh .sda, .delay, .releaseHigh .scl])) = 1 →
    exec (.sendFrame n) s =
      .next { s with
        bitI := 7
        byteReg := 0x10
        ack := 0
        count := BitVec.ofNat 8 n
        result := 1
        ticks := s.ticks + 33
        trace := s.trace ++ startTrace ++ byteTrace 0x10 1 ++ stopTrace
        envSda := s.envSda.tail } ∧
    (startTrace ++ byteTrace 0x10 1 ++ stopTrace).length = 68 ∧
    observe (startTrace ++ byteTrace 0x10 1 ++ stopTrace) = [.start, .byte 0x10 1, .stop]

/-- R155, read with the wire observer run on `drv` as R78 allows: what one call puts on the wire, for every count,
every sequence and every environment: one START, the byte 0x10, the four bytes of each value in order if its
acknowledgment is `A` and none if it is `N`, one STOP. -/
def Obligations.SendFrameEmitsOneFrame : Prop :=
  ∀ (n : Nat) (s : State), FrameEntry n s →
    ∃ t w acks, exec (.sendFrame n) s = .next t ∧ t.trace = s.trace ++ w ∧ samplesOf w = t.result :: acks ∧
      (t.result = 1 → acks = [] ∧ observe w = [.start, .byte 0x10 1, .stop]) ∧
      (t.result = 0 → acks.length = 4 * n ∧
        observe w =
          [.start, .byte 0x10 0] ++
            List.zipWith Symbol.byte ((s.values.take n).flatMap valueBytes) acks ++ [.stop])

/-- R157, R216, derived by the spec: primitives, ticks, samples and least real time of a call. -/
def Obligations.SendFrameCost : Prop :=
  ∀ (n : Nat) (s : State), FrameEntry n s →
    ∃ t w, exec (.sendFrame n) s = .next t ∧ t.trace = s.trace ++ w ∧
      (t.result = 1 → w.length = 68 ∧ delayCount w = 33 ∧ t.ticks = s.ticks + 33 ∧ (samplesOf w).length = 1 ∧
        elapsedAtLeast t = elapsedAtLeast s + 33 * s.cfg.tBit) ∧
      (t.result = 0 → w.length = 68 + 220 * n ∧ delayCount w = 33 + 108 * n ∧ t.ticks = s.ticks + (33 + 108 * n) ∧
        (samplesOf w).length = 1 + 4 * n ∧
        elapsedAtLeast t = elapsedAtLeast s + (33 + 108 * n) * s.cfg.tBit) ∧
      (t.result = 0 ∨ t.result = 1)

/-- R153, R172: what the data bytes' acknowledgment cells read changes nothing but the sampled bits. Two runs that
differ only in the answers after the first, which the model's script of answers supplies (log 4), end in states that
differ only in `x[ack]`, the sampled values in the trace and the answers left. -/
def Obligations.DataAcknowledgmentsAreIgnored : Prop :=
  ∀ (n : Nat) (s : State) (a : Bit) (as bs : List Bit), FrameEntry n s →
    ∃ t u, exec (.sendFrame n) { s with envSda := a :: as } = .next t ∧
      exec (.sendFrame n) { s with envSda := a :: bs } = .next u ∧
      t.trace.map eraseSample = u.trace.map eraseSample ∧
      u = { t with ack := u.ack, trace := u.trace, envSda := u.envSda }

/-- R51 (`VAL` as a list: log 11): elements at index `count` and above are never read: they change nothing of the
run. -/
def Obligations.ElementsPastTheCountAreNotRead : Prop :=
  ∀ (n : Nat) (s : State) (vs : List Value), FrameEntry n s → n ≤ vs.length → vs.take n = s.values.take n →
    ∃ t, exec (.sendFrame n) s = .next t ∧
      exec (.sendFrame n) { s with values := vs } = .next { t with values := vs }

/-- R156: the empty frame is `start(); write_byte(0x10); stop()` with `RESULT` latched, 68 primitives which the
acknowledgment changes in the sampled bit only: a presence probe. That `x[count]` holds 0 after the call, where R25
calls it dead, is the model's choice (log 9). -/
def Obligations.EmptyFrameIsAPresenceProbe : Prop :=
  ∀ s : State, FrameEntry 0 s →
    ∃ r a b c, exec .start s = .next a ∧ exec (.writeByte 0x10) a = .next b ∧ exec .stop b = .next c ∧
      c.trace = s.trace ++ (startTrace ++ byteCells 0x10 ++ ackCell r ++ stopTrace) ∧
      (startTrace ++ byteCells 0x10 ++ ackCell r ++ stopTrace).length = 68 ∧
      observe (startTrace ++ byteCells 0x10 ++ ackCell r ++ stopTrace) = [.start, .byte 0x10 r, .stop] ∧
      c.drv = ⟨.releasedHigh, .releasedHigh⟩ ∧ c.phase = .idle ∧
      exec (.sendFrame 0) s = .next { c with count := 0, result := r }

/-- R2, R77, R150: `send_frame` is built strictly on the layer below. A call and the program of engine operations it
stands for make the same call trace and leave the same lines, phase, time and acknowledgment. That `x[bit_i]` and
`x[byte]` agree after the call, where R25 calls them dead, rests on the model's choice for both (log 9). -/
def Obligations.SendFrameRefinesItsEngineProgram : Prop :=
  ∀ (n : Nat) (s : State), FrameEntry n s →
    ∃ t c, exec (.sendFrame n) s = .next t ∧
      runOperations (frameProgram t.result (s.values.take n)) s = .next c ∧
      t.trace = c.trace ∧ t.drv = c.drv ∧ t.phase = c.phase ∧ t.ticks = c.ticks ∧ t.ack = c.ack ∧ t.bitI = c.bitI ∧
      t.byteReg = c.byteReg ∧ t.envSda = c.envSda

/-- R158, R159, R51: each call a model refuses, by its reason, in the order the model looks (log 18). -/
def Obligations.SendFrameRefusals : Prop :=
  ∀ (n : Nat) (s : State),
    (s.busy = 1 → exec (.sendFrame n) s = .refused .frameWhileBusy) ∧
    (s.busy = 0 → ¬(s.drv = ⟨.releasedHigh, .releasedHigh⟩ ∧ s.phase = .idle) →
      exec (.sendFrame n) s = .refused (.busNotIdle s.phase s.drv)) ∧
    (s.busy = 0 → s.drv = ⟨.releasedHigh, .releasedHigh⟩ → s.phase = .idle → 255 < n →
      exec (.sendFrame n) s = .refused (.countNotUint8 n)) ∧
    (s.busy = 0 → s.drv = ⟨.releasedHigh, .releasedHigh⟩ → s.phase = .idle → n ≤ 255 → s.values.length < n →
      exec (.sendFrame n) s = .refused (.countAboveValues n s.values.length))

/-! ## Whole machine -/

/-- R29, R162: no operation changes the configuration or any element of the caller's sequence, or what is offered
from outside. -/
def Obligations.NoOperationTouchesTheOutside : Prop :=
  ∀ (i : Instr) (s t : State), exec i s = .next t → SameOutside s t

/-- R29: no step of the machine, a reset included, changes the configuration. -/
def Obligations.ConfigurationIsReadOnly : Prop :=
  ∀ s t : State, step s = .next t → t.cfg = s.cfg

/-- R20, R31, R58: an operation only appends to the call trace, and what it appends accounts for every change of
the lines and of the tick count. -/
def Obligations.TheTraceAccountsForEveryChange : Prop :=
  ∀ (i : Instr) (s t : State), exec i s = .next t →
    ∃ w, t.trace = s.trace ++ w ∧ t.drv = replay s.drv w ∧ t.ticks = s.ticks + delayCount w

/-- R103: no operation of layers 2 and 3 samples the clock line. -/
def Obligations.ClockIsNeverSampledAboveTheLineDriver : Prop :=
  ∀ (i : Instr) (s t : State), i.layer ≠ .lineDriver → exec i s = .next t →
    ∃ w, t.trace = s.trace ++ w ∧ ∀ b, Event.sample .scl b ∉ w

/-- R33 (derived by the spec), R34: outside the Line Driver every operation keeps phase and lines in agreement. -/
def Obligations.PhaseKeepsMatchingTheLines : Prop :=
  ∀ (i : Instr) (s t : State), i.layer ≠ .lineDriver → phaseMatchesLines s = true → exec i s = .next t →
    phaseMatchesLines t = true

/-- R59, derived by the spec: every operation of layers 2 and 3 keeps consecutive transitions at least one tick
apart. -/
def Obligations.TransitionsStayOneTickApart : Prop :=
  ∀ (i : Instr) (s t : State), i.layer ≠ .lineDriver → Bookkeeping s → Spaced s → exec i s = .next t → Spaced t

/-- R20, R24, R28, R31: the bookkeeping stays complete and every operation boundary is at rest, over every step (a
step is one whole operation, log 1). -/
def Obligations.EveryStepKeepsBookkeepingAndRest : Prop :=
  ∀ s t : State, Bookkeeping s → AtRest s → step s = .next t → Bookkeeping t ∧ AtRest t

/-- R80, R217, R218: a machine that only its host drives is on an idle bus with `BUSY` 0 after every step, its
transitions at least one tick apart (R59). -/
def Obligations.HostDrivenMachineRestsOnAnIdleBus : Prop :=
  ∀ s t : State, HostDriven s → step s = .next t → HostDriven t

/-- R35, R33: the values the spec gives for the state after reset, and that it meets the invariants of this file:
Bookkeeping and AtRest, agreement of phase and lines, HostDriven (with it Spaced), no read request on the wire (the
configuration is any that R29 allows, log 10). -/
def Obligations.ResetStateIsIdleAndMeetsTheInvariants : Prop :=
  State.reset.drv = ⟨.releasedHigh, .releasedHigh⟩ ∧ State.reset.phase = .idle ∧ State.reset.busy = 0 ∧
  State.reset.ticks = 0 ∧ State.reset.trace = [] ∧
  State.reset.cfg.sclId ≠ State.reset.cfg.sdaId ∧ 0 < State.reset.cfg.tBit ∧
  Bookkeeping State.reset ∧ AtRest State.reset ∧ phaseMatchesLines State.reset = true ∧ HostDriven State.reset ∧
  asksForNoRead State.reset = true

/-! ## Steps and words -/

/-- R79, R218 (how a word reaches the machine is the model's, logs 2 and 26): a step performs the operation its
word names, and nothing around it but taking the word. -/
def Obligations.StepRunsTheDecodedOperation : Prop :=
  (∀ (s : State) (w : Word) (rest : List Input) (i : Instr),
    s.inbox = .operation w :: rest → decode w = .ok i → step s = exec i { s with inbox := rest }) ∧
  (∀ (s : State) (nbits w : Nat) (i : Instr),
    decodeTableWord nbits w = some i → step (s.withFetchWord nbits w) = exec i s)

/-- R81 (log 2): a step refuses a word that names no operation, by the reason. That a word with `op` in `0xA .. 0xF`
and reserved bits set is refused for the operation is the model's choice (log 29). -/
def Obligations.StepRefusesWordsThatNameNoOperation : Prop :=
  ∀ (s : State) (w : Word) (rest : List Input), s.inbox = .operation w :: rest →
    (0xA ≤ (w.extractLsb' 12 4).toNat → step s = .refused (.noSuchOperation w)) ∧
    ((w.extractLsb' 12 4).toNat < 0xA → opRows.all (fun r => !r.selects w) = true →
      step s = .refused (.reservedBits w))

/-- R158, R218 (logs 2 and 18): a step serves the host's request of a frame: the sequence becomes `VAL`, a count
outside 0 to 255 is refused from an idle machine, any other is `send_frame`. -/
def Obligations.StepServesAFrameRequest : Prop :=
  ∀ (s : State) (vs : List Value) (n : Int) (rest : List Input), s.inbox = .frame vs n :: rest →
    (0 ≤ n → step s = exec (.sendFrame n.toNat) { s with values := vs, inbox := rest }) ∧
    (n < 0 → step s = .refused (.countNotUint8 n)) ∧
    (255 < n → busIdle s = true → s.busy = 0 → step s = .refused (.countNotUint8 n))

/-- R200, R35: a step serves reset when no call is in progress and refuses it otherwise. The working registers and
`RESULT`, which the spec leaves unspecified, take the model's reset values (DESIGN CHOICE, logs 7, 8, 15). -/
def Obligations.StepServesReset : Prop :=
  ∀ (s : State) (rest : List Input), s.inbox = .reset :: rest →
    (s.busy = 0 → ∃ t, step s = .next t ∧ t.drv = ⟨.releasedHigh, .releasedHigh⟩ ∧ t.phase = .idle ∧ t.busy = 0 ∧
      t.ticks = 0 ∧ t.trace = [] ∧ t.cfg = s.cfg ∧ t.values = s.values ∧ t.inbox = rest) ∧
    (s.busy = 1 → step s = .refused .resetDuringCall)

/-- R184, R201 (log 28): with nothing offered the block waits and nothing changes. -/
def Obligations.StepWaitsWhenNothingIsOffered : Prop :=
  ∀ s : State, s.inbox = [] → step s = .next s

/-- R79 (the words are the spec's own, D3; log 26): decoding the word of a well-formed operation gives the
operation back, every operand at every value. -/
def Obligations.DecodeInvertsEncode : Prop :=
  ∀ i : Instr, i.wellFormed = true → decode (encode i) = .ok i

/-- R79: a word that names an operation is the word of that operation: no two words name one operation, and no bit
of a word is ignored. -/
def Obligations.EncodeInvertsDecode : Prop :=
  ∀ (w : Word) (i : Instr), decode w = .ok i → i.wellFormed = true ∧ encode i = w

/-- R79, R81: a word names an operation exactly when it selects one of the ten rows, and then exactly one. -/
def Obligations.WordsSelectRowsAsTheTableSays : Prop :=
  (∀ w : Word, (∃ i, decode w = .ok i) ↔ ∃ r ∈ opRows, r.selects w = true) ∧
  (∀ (w : Word) (i : Instr), decode w = .ok i → ∀ r ∈ opRows, (r.selects w = true ↔ r = opRow i))

/-- R79: some words of the table, one or more for each family. -/
def Obligations.WordsOfTheTable : Prop :=
  decode 0x0001 = .ok (.driveLow .sda) ∧ decode 0x1000 = .ok (.releaseHigh .scl) ∧
  decode 0x2001 = .ok (.sample .sda) ∧ decode 0x3000 = .ok .delayBitTime ∧
  decode 0x6001 = .ok (.writeBit 1) ∧ decode 0x8010 = .ok (.writeByte 0x10) ∧
  decode 0x9002 = .ok (.sendFrame 2) ∧ decode 0x90FF = .ok (.sendFrame 255)

/-- R81 over the machine: no operation of layers 2 and 3 leaves on the wire a first byte after a START with bit 0
set, as the observer run on `drv` reads it (logs 14 and 23). -/
def Obligations.NoFirstByteAsksForARead : Prop :=
  ∀ (i : Instr) (s t : State), i.layer ≠ .lineDriver → Bookkeeping s → asksForNoRead s = true →
    exec i s = .next t → asksForNoRead t = true
end

