-- ==== Sys2Proof/Laws/State.lean ====
section
/-!
SUPPORT. What each basic update of `State` does to each field, so that no later proof unfolds a record update.
-/

namespace Sys2Proof.Machine

@[simp] theorem emit_cfg (e : Event) (s : State) : (emit e s).cfg = s.cfg := rfl
@[simp] theorem emit_drv (e : Event) (s : State) : (emit e s).drv = s.drv := rfl
@[simp] theorem emit_phase (e : Event) (s : State) : (emit e s).phase = s.phase := rfl
@[simp] theorem emit_bitI (e : Event) (s : State) : (emit e s).bitI = s.bitI := rfl
@[simp] theorem emit_byteReg (e : Event) (s : State) : (emit e s).byteReg = s.byteReg := rfl
@[simp] theorem emit_ack (e : Event) (s : State) : (emit e s).ack = s.ack := rfl
@[simp] theorem emit_byteK (e : Event) (s : State) : (emit e s).byteK = s.byteK := rfl
@[simp] theorem emit_valI (e : Event) (s : State) : (emit e s).valI = s.valI := rfl
@[simp] theorem emit_val (e : Event) (s : State) : (emit e s).val = s.val := rfl
@[simp] theorem emit_count (e : Event) (s : State) : (emit e s).count = s.count := rfl
@[simp] theorem emit_result (e : Event) (s : State) : (emit e s).result = s.result := rfl
@[simp] theorem emit_busy (e : Event) (s : State) : (emit e s).busy = s.busy := rfl
@[simp] theorem emit_ticks (e : Event) (s : State) : (emit e s).ticks = s.ticks := rfl
@[simp] theorem emit_trace (e : Event) (s : State) : (emit e s).trace = s.trace ++ [e] := rfl
@[simp] theorem emit_values (e : Event) (s : State) : (emit e s).values = s.values := rfl
@[simp] theorem emit_envSda (e : Event) (s : State) : (emit e s).envSda = s.envSda := rfl
@[simp] theorem emit_resets (e : Event) (s : State) : (emit e s).resets = s.resets := rfl
@[simp] theorem emit_inbox (e : Event) (s : State) : (emit e s).inbox = s.inbox := rfl

@[simp] theorem setDrv_cfg (l : Line) (v : Drive) (s : State) : (setDrv l v s).cfg = s.cfg := rfl
@[simp] theorem setDrv_drv (l : Line) (v : Drive) (s : State) : (setDrv l v s).drv = s.drv.set l v := rfl
@[simp] theorem setDrv_phase (l : Line) (v : Drive) (s : State) : (setDrv l v s).phase = s.phase := rfl
@[simp] theorem setDrv_bitI (l : Line) (v : Drive) (s : State) : (setDrv l v s).bitI = s.bitI := rfl
@[simp] theorem setDrv_byteReg (l : Line) (v : Drive) (s : State) : (setDrv l v s).byteReg = s.byteReg := rfl
@[simp] theorem setDrv_ack (l : Line) (v : Drive) (s : State) : (setDrv l v s).ack = s.ack := rfl
@[simp] theorem setDrv_byteK (l : Line) (v : Drive) (s : State) : (setDrv l v s).byteK = s.byteK := rfl
@[simp] theorem setDrv_valI (l : Line) (v : Drive) (s : State) : (setDrv l v s).valI = s.valI := rfl
@[simp] theorem setDrv_val (l : Line) (v : Drive) (s : State) : (setDrv l v s).val = s.val := rfl
@[simp] theorem setDrv_count (l : Line) (v : Drive) (s : State) : (setDrv l v s).count = s.count := rfl
@[simp] theorem setDrv_result (l : Line) (v : Drive) (s : State) : (setDrv l v s).result = s.result := rfl
@[simp] theorem setDrv_busy (l : Line) (v : Drive) (s : State) : (setDrv l v s).busy = s.busy := rfl
@[simp] theorem setDrv_ticks (l : Line) (v : Drive) (s : State) : (setDrv l v s).ticks = s.ticks := rfl
@[simp] theorem setDrv_trace (l : Line) (v : Drive) (s : State) : (setDrv l v s).trace = s.trace := rfl
@[simp] theorem setDrv_values (l : Line) (v : Drive) (s : State) : (setDrv l v s).values = s.values := rfl
@[simp] theorem setDrv_envSda (l : Line) (v : Drive) (s : State) : (setDrv l v s).envSda = s.envSda := rfl
@[simp] theorem setDrv_resets (l : Line) (v : Drive) (s : State) : (setDrv l v s).resets = s.resets := rfl
@[simp] theorem setDrv_inbox (l : Line) (v : Drive) (s : State) : (setDrv l v s).inbox = s.inbox := rfl

@[simp] theorem loadValue_cfg (i : Nat) (v : Value) (s : State) : (loadValue i v s).cfg = s.cfg := rfl
@[simp] theorem loadValue_drv (i : Nat) (v : Value) (s : State) : (loadValue i v s).drv = s.drv := rfl
@[simp] theorem loadValue_phase (i : Nat) (v : Value) (s : State) : (loadValue i v s).phase = s.phase := rfl
@[simp] theorem loadValue_bitI (i : Nat) (v : Value) (s : State) : (loadValue i v s).bitI = s.bitI := rfl
@[simp] theorem loadValue_byteReg (i : Nat) (v : Value) (s : State) : (loadValue i v s).byteReg = s.byteReg := rfl
@[simp] theorem loadValue_ack (i : Nat) (v : Value) (s : State) : (loadValue i v s).ack = s.ack := rfl
@[simp] theorem loadValue_byteK (i : Nat) (v : Value) (s : State) : (loadValue i v s).byteK = s.byteK := rfl
@[simp] theorem loadValue_valI (i : Nat) (v : Value) (s : State) : (loadValue i v s).valI = BitVec.ofNat 8 i := rfl
@[simp] theorem loadValue_val (i : Nat) (v : Value) (s : State) : (loadValue i v s).val = v := rfl
@[simp] theorem loadValue_count (i : Nat) (v : Value) (s : State) : (loadValue i v s).count = s.count := rfl
@[simp] theorem loadValue_result (i : Nat) (v : Value) (s : State) : (loadValue i v s).result = s.result := rfl
@[simp] theorem loadValue_busy (i : Nat) (v : Value) (s : State) : (loadValue i v s).busy = s.busy := rfl
@[simp] theorem loadValue_ticks (i : Nat) (v : Value) (s : State) : (loadValue i v s).ticks = s.ticks := rfl
@[simp] theorem loadValue_trace (i : Nat) (v : Value) (s : State) : (loadValue i v s).trace = s.trace := rfl
@[simp] theorem loadValue_values (i : Nat) (v : Value) (s : State) : (loadValue i v s).values = s.values := rfl
@[simp] theorem loadValue_envSda (i : Nat) (v : Value) (s : State) : (loadValue i v s).envSda = s.envSda := rfl
@[simp] theorem loadValue_resets (i : Nat) (v : Value) (s : State) : (loadValue i v s).resets = s.resets := rfl
@[simp] theorem loadValue_inbox (i : Nat) (v : Value) (s : State) : (loadValue i v s).inbox = s.inbox := rfl

@[simp] theorem offerWord_cfg (w : Word) (s : State) : (offerWord w s).cfg = s.cfg := rfl
@[simp] theorem offerWord_drv (w : Word) (s : State) : (offerWord w s).drv = s.drv := rfl
@[simp] theorem offerWord_phase (w : Word) (s : State) : (offerWord w s).phase = s.phase := rfl
@[simp] theorem offerWord_bitI (w : Word) (s : State) : (offerWord w s).bitI = s.bitI := rfl
@[simp] theorem offerWord_byteReg (w : Word) (s : State) : (offerWord w s).byteReg = s.byteReg := rfl
@[simp] theorem offerWord_ack (w : Word) (s : State) : (offerWord w s).ack = s.ack := rfl
@[simp] theorem offerWord_byteK (w : Word) (s : State) : (offerWord w s).byteK = s.byteK := rfl
@[simp] theorem offerWord_valI (w : Word) (s : State) : (offerWord w s).valI = s.valI := rfl
@[simp] theorem offerWord_val (w : Word) (s : State) : (offerWord w s).val = s.val := rfl
@[simp] theorem offerWord_count (w : Word) (s : State) : (offerWord w s).count = s.count := rfl
@[simp] theorem offerWord_result (w : Word) (s : State) : (offerWord w s).result = s.result := rfl
@[simp] theorem offerWord_busy (w : Word) (s : State) : (offerWord w s).busy = s.busy := rfl
@[simp] theorem offerWord_ticks (w : Word) (s : State) : (offerWord w s).ticks = s.ticks := rfl
@[simp] theorem offerWord_trace (w : Word) (s : State) : (offerWord w s).trace = s.trace := rfl
@[simp] theorem offerWord_values (w : Word) (s : State) : (offerWord w s).values = s.values := rfl
@[simp] theorem offerWord_envSda (w : Word) (s : State) : (offerWord w s).envSda = s.envSda := rfl
@[simp] theorem offerWord_resets (w : Word) (s : State) : (offerWord w s).resets = s.resets := rfl
@[simp] theorem offerWord_inbox (w : Word) (s : State) : (offerWord w s).inbox = .operation w :: s.inbox := rfl

@[simp] theorem resetAction_cfg (s : State) : (resetAction s).cfg = s.cfg := rfl
@[simp] theorem resetAction_drv (s : State) : (resetAction s).drv = Drives.released := rfl
@[simp] theorem resetAction_phase (s : State) : (resetAction s).phase = .idle := rfl
@[simp] theorem resetAction_bitI (s : State) : (resetAction s).bitI = 0 := rfl
@[simp] theorem resetAction_byteReg (s : State) : (resetAction s).byteReg = 0 := rfl
@[simp] theorem resetAction_ack (s : State) : (resetAction s).ack = 0 := rfl
@[simp] theorem resetAction_byteK (s : State) : (resetAction s).byteK = 0 := rfl
@[simp] theorem resetAction_valI (s : State) : (resetAction s).valI = 0 := rfl
@[simp] theorem resetAction_val (s : State) : (resetAction s).val = 0 := rfl
@[simp] theorem resetAction_count (s : State) : (resetAction s).count = 0 := rfl
@[simp] theorem resetAction_result (s : State) : (resetAction s).result = 0 := rfl
@[simp] theorem resetAction_busy (s : State) : (resetAction s).busy = 0 := rfl
@[simp] theorem resetAction_ticks (s : State) : (resetAction s).ticks = 0 := rfl
@[simp] theorem resetAction_trace (s : State) : (resetAction s).trace = [] := rfl
@[simp] theorem resetAction_values (s : State) : (resetAction s).values = s.values := rfl
@[simp] theorem resetAction_envSda (s : State) : (resetAction s).envSda = s.envSda := rfl
@[simp] theorem resetAction_resets (s : State) : (resetAction s).resets = s.resets + 1 := rfl
@[simp] theorem resetAction_inbox (s : State) : (resetAction s).inbox = s.inbox := rfl

@[simp] theorem takeEnv_cfg (l : Line) (s : State) : (takeEnv l s).cfg = s.cfg := by cases l <;> rfl
@[simp] theorem takeEnv_drv (l : Line) (s : State) : (takeEnv l s).drv = s.drv := by cases l <;> rfl
@[simp] theorem takeEnv_phase (l : Line) (s : State) : (takeEnv l s).phase = s.phase := by cases l <;> rfl
@[simp] theorem takeEnv_bitI (l : Line) (s : State) : (takeEnv l s).bitI = s.bitI := by cases l <;> rfl
@[simp] theorem takeEnv_byteReg (l : Line) (s : State) : (takeEnv l s).byteReg = s.byteReg := by cases l <;> rfl
@[simp] theorem takeEnv_ack (l : Line) (s : State) : (takeEnv l s).ack = s.ack := by cases l <;> rfl
@[simp] theorem takeEnv_byteK (l : Line) (s : State) : (takeEnv l s).byteK = s.byteK := by cases l <;> rfl
@[simp] theorem takeEnv_valI (l : Line) (s : State) : (takeEnv l s).valI = s.valI := by cases l <;> rfl
@[simp] theorem takeEnv_val (l : Line) (s : State) : (takeEnv l s).val = s.val := by cases l <;> rfl
@[simp] theorem takeEnv_count (l : Line) (s : State) : (takeEnv l s).count = s.count := by cases l <;> rfl
@[simp] theorem takeEnv_result (l : Line) (s : State) : (takeEnv l s).result = s.result := by cases l <;> rfl
@[simp] theorem takeEnv_busy (l : Line) (s : State) : (takeEnv l s).busy = s.busy := by cases l <;> rfl
@[simp] theorem takeEnv_ticks (l : Line) (s : State) : (takeEnv l s).ticks = s.ticks := by cases l <;> rfl
@[simp] theorem takeEnv_trace (l : Line) (s : State) : (takeEnv l s).trace = s.trace := by cases l <;> rfl
@[simp] theorem takeEnv_values (l : Line) (s : State) : (takeEnv l s).values = s.values := by cases l <;> rfl
@[simp] theorem takeEnv_resets (l : Line) (s : State) : (takeEnv l s).resets = s.resets := by cases l <;> rfl
@[simp] theorem takeEnv_inbox (l : Line) (s : State) : (takeEnv l s).inbox = s.inbox := by cases l <;> rfl
@[simp] theorem takeEnv_scl (s : State) : takeEnv .scl s = s := rfl
@[simp] theorem takeEnv_sda_envSda (s : State) : (takeEnv .sda s).envSda = s.envSda.tail := rfl

@[simp] theorem Drives.get_scl (d : Drives) : d.get .scl = d.scl := rfl
@[simp] theorem Drives.get_sda (d : Drives) : d.get .sda = d.sda := rfl
@[simp] theorem Drives.set_scl (d : Drives) (v : Drive) : d.set .scl v = ⟨v, d.sda⟩ := rfl
@[simp] theorem Drives.set_sda (d : Drives) (v : Drive) : d.set .sda v = ⟨d.scl, v⟩ := rfl

theorem Drives.get_set_self (d : Drives) (l : Line) (v : Drive) : (d.set l v).get l = v := by cases l <;> rfl

theorem Drives.get_set_other (d : Drives) (l m : Line) (v : Drive) (h : m ≠ l) : (d.set l v).get m = d.get m := by
  cases l <;> cases m <;> first | rfl | exact absurd rfl h

end Sys2Proof.Machine
end

