-- ==== Sys2Proof/Laws/Ops.lean ====
section
/-!
SUPPORT. One lemma for each shared operation that says once everything it does, as the state it gives: the provers cite
these and do not unfold the operation. Then the bits, replays and tick counts of the cells.
-/

namespace Sys2Proof.Machine

theorem bit_eq_zero_or_one : ∀ b : Bit, b = 0 ∨ b = 1 := by decide

@[simp] theorem released_bit_and : ∀ b : Bit, Drive.releasedHigh.bit &&& b = b := by decide

@[simp] theorem drivenLow_bit_and : ∀ b : Bit, Drive.drivenLow.bit &&& b = 0 := by decide

@[simp] theorem bit_and_one : ∀ b : Bit, b &&& 1 = b := by decide

theorem ackOf_eq_zero_iff : ∀ b : Bit, ackOf b = 0 ↔ b = 1 := by decide

@[simp] theorem driveOfBit_bit : ∀ b : Bit, (driveOfBit b).bit = b := by decide

/-- The answer of the environment at the one sample of an acknowledgment cell begun in `s`: the fixed one, else the
free value of the history so far. -/
def ackAnswer (s : State) : Bit :=
  s.envSda.headD (Config.envSda s.resets (s.trace ++ [.releaseHigh .sda, .delay, .releaseHigh .scl]))

/-- The answer at the one sample of a byte begun in `s`. -/
def byteAnswer (b : Byte) (s : State) : Bit :=
  s.envSda.headD (Config.envSda s.resets
    (s.trace ++ byteCells b ++ [.releaseHigh .sda, .delay, .releaseHigh .scl]))

theorem driveLow_eq (l : Line) (s : State) :
    driveLow l s = { s with drv := s.drv.set l .drivenLow, trace := s.trace ++ [.driveLow l] } := rfl

theorem releaseHigh_eq (l : Line) (s : State) :
    releaseHigh l s = { s with drv := s.drv.set l .releasedHigh, trace := s.trace ++ [.releaseHigh l] } := rfl

theorem sampleLine_scl_eq (s : State) :
    sampleLine .scl s = { s with trace := s.trace ++ [.sample .scl (level .scl s)] } := rfl

theorem sampleLine_sda_eq (s : State) :
    sampleLine .sda s =
      { s with trace := s.trace ++ [.sample .sda (level .sda s)], envSda := s.envSda.tail } := rfl

theorem delayBitTime_eq (s : State) :
    delayBitTime s = { s with ticks := s.ticks + 1, trace := s.trace ++ [.delay] } := rfl

theorem startOp_eq (s : State) :
    startOp s =
      { s with drv := ⟨.drivenLow, .drivenLow⟩, phase := .started, ticks := s.ticks + 3,
               trace := s.trace ++ startTrace } := by
  simp [startOp, driveLow_eq, releaseHigh_eq, delayBitTime_eq, startTrace]

theorem stopOp_eq (s : State) :
    stopOp s =
      { s with drv := Drives.released, phase := .idle, ticks := s.ticks + 3, trace := s.trace ++ stopTrace } := by
  simp [stopOp, driveLow_eq, releaseHigh_eq, delayBitTime_eq, stopTrace, Drives.released]

theorem writeBitOp_eq (b : Bit) (s : State) :
    writeBitOp b s =
      { s with drv := ⟨.drivenLow, driveOfBit b⟩, ticks := s.ticks + 3, trace := s.trace ++ bitCell b } := by
  rcases bit_eq_zero_or_one b with rfl | rfl <;>
    simp [writeBitOp, putBit, putBitEvent, driveOfBit, driveLow_eq, releaseHigh_eq, delayBitTime_eq, bitCell]

theorem readAckOp_eq (s : State) :
    readAckOp s =
      { s with drv := ⟨.drivenLow, .releasedHigh⟩, ack := ackOf (ackAnswer s), ticks := s.ticks + 3,
               trace := s.trace ++ ackCell (ackAnswer s), envSda := s.envSda.tail } := by
  simp [readAckOp, driveLow_eq, releaseHigh_eq, delayBitTime_eq, sampleLine_sda_eq, level, envContribution, ackAnswer,
    ackCell]

/-- The bit loop of `write_byte`, whatever indices it runs over. -/
theorem foldl_writeByteBit_eq (b : Byte) (j : Nat) (js : List Nat) (s : State) :
    (j :: js).foldl (writeByteBit b) s =
      { s with
        drv := ⟨.drivenLow, driveOfBit (byteBit b ((j :: js).getLast (List.cons_ne_nil j js)))⟩
        bitI := BitVec.ofNat 3 ((j :: js).getLast (List.cons_ne_nil j js))
        ticks := s.ticks + 3 * (j :: js).length
        trace := s.trace ++ (j :: js).flatMap (fun j => bitCell (byteBit b j)) } := by
  induction js generalizing j s with
  | nil => simp [writeByteBit, writeBitOp_eq]
  | cons k ks ih =>
    rw [List.foldl_cons, ih]
    simp [writeByteBit, writeBitOp_eq]
    omega

theorem writeByteOp_eq (b : Byte) (s : State) :
    writeByteOp b s =
      { s with
        drv := ⟨.drivenLow, .releasedHigh⟩
        phase := .byteActive
        bitI := 7
        byteReg := b
        ack := ackOf (byteAnswer b s)
        ticks := s.ticks + 27
        trace := s.trace ++ byteTrace b (byteAnswer b s)
        envSda := s.envSda.tail } := by
  simp only [writeByteOp, foldl_writeByteBit_eq, readAckOp_eq]
  simp [ackAnswer, byteAnswer, byteTrace, byteCells, byteBits]

theorem openFrame_eq (count : Nat) (s : State) :
    openFrame count s =
      writeByteOp addrByte
        { s with busy := 1, count := BitVec.ofNat 8 count, drv := ⟨.drivenLow, .drivenLow⟩, phase := .started,
                 ticks := s.ticks + 3, trace := s.trace ++ startTrace } := by
  simp only [openFrame, startOp_eq]

theorem abortFrame_eq (s : State) :
    abortFrame s =
      { s with drv := Drives.released, phase := .idle, ticks := s.ticks + 3, trace := s.trace ++ stopTrace,
               result := 1, busy := 0 } := by
  simp only [abortFrame, stopOp_eq, resultPeripheralAbsent]

theorem closeFrame_eq (s : State) :
    closeFrame s =
      { s with drv := Drives.released, phase := .idle, ticks := s.ticks + 3, trace := s.trace ++ stopTrace,
               result := 0, busy := 0 } := by
  simp only [closeFrame, stopOp_eq, resultOk]

end Sys2Proof.Machine
end

