-- ==== Sys2Proof/Laws/Trace.lean ====
section
/-!
SUPPORT. The functions of a call trace over appended traces, and over the cells of the wire: what each cell replays to,
how many ticks and samples it holds, the marks it makes.
-/

namespace Sys2Proof.Machine

@[simp] theorem replay_nil (d : Drives) : replay d [] = d := rfl
@[simp] theorem replay_cons (d : Drives) (e : Event) (es : List Event) :
    replay d (e :: es) = replay (applyEvent d e) es := rfl

@[simp] theorem marksFrom_nil (d : Drives) : marksFrom d [] = [] := rfl

theorem replay_append (d : Drives) (es fs : List Event) : replay d (es ++ fs) = replay (replay d es) fs := by
  induction es generalizing d with
  | nil => rfl
  | cons e es ih => exact ih _

theorem delayCount_append (es fs : List Event) : delayCount (es ++ fs) = delayCount es + delayCount fs := by
  induction es with
  | nil => simp [delayCount]
  | cons e es ih =>
    cases e <;> simp only [List.cons_append, delayCount, ih]
    omega

theorem samplesOf_append (es fs : List Event) : samplesOf (es ++ fs) = samplesOf es ++ samplesOf fs := by
  induction es with
  | nil => rfl
  | cons e es ih => cases e <;> simp [samplesOf, ih]

theorem transitionsFrom_append (d : Drives) (n : Nat) (es fs : List Event) :
    transitionsFrom d n (es ++ fs) =
      transitionsFrom d n es ++ transitionsFrom (replay d es) (n + delayCount es) fs := by
  induction es generalizing d n with
  | nil => rfl
  | cons e es ih =>
    cases e with
    | delay => simp [transitionsFrom, delayCount, applyEvent, ih, Nat.add_assoc, Nat.add_comm 1]
    | driveLow l => simp [transitionsFrom, delayCount, applyEvent, ih]
    | releaseHigh l => simp [transitionsFrom, delayCount, applyEvent, ih]
    | sample l b => simp [transitionsFrom, delayCount, applyEvent, ih]

/-- The primitives of a list of bytes with their acknowledgment bits. -/
def bytesTrace : List Byte → List Bit → List Event
  | b :: bs, a :: as => byteTrace b a ++ bytesTrace bs as
  | _, _ => []

theorem bytesTrace_append (bs cs : List Byte) (as es : List Bit) (h : bs.length = as.length) :
    bytesTrace (bs ++ cs) (as ++ es) = bytesTrace bs as ++ bytesTrace cs es := by
  induction bs generalizing as with
  | nil => cases as <;> simp_all [bytesTrace]
  | cons b bs ih =>
    cases as with
    | nil => simp at h
    | cons a as => simp [bytesTrace, ih as (by simpa using h)]

@[simp] theorem length_byteTrace (b : Byte) (a : Bit) : (byteTrace b a).length = 55 := rfl

@[simp] theorem delayCount_bitCell (b : Bit) : delayCount (bitCell b) = 3 := by
  rcases bit_eq_zero_or_one b with rfl | rfl <;> rfl

@[simp] theorem samplesOf_bitCell (b : Bit) : samplesOf (bitCell b) = [] := by
  rcases bit_eq_zero_or_one b with rfl | rfl <;> rfl

@[simp] theorem replay_bitCell (d : Drives) (b : Bit) : replay d (bitCell b) = ⟨.drivenLow, driveOfBit b⟩ := by
  rcases bit_eq_zero_or_one b with rfl | rfl <;> rfl

@[simp] theorem replay_ackCell (d : Drives) (a : Bit) : replay d (ackCell a) = ⟨.drivenLow, .releasedHigh⟩ := rfl

theorem delayCount_flatMap_bitCell (bs : List Bit) : delayCount (bs.flatMap bitCell) = 3 * bs.length := by
  induction bs with
  | nil => rfl
  | cons b bs ih => simp [delayCount_append, ih]; omega

theorem samplesOf_flatMap_bitCell (bs : List Bit) : samplesOf (bs.flatMap bitCell) = [] := by
  induction bs with
  | nil => rfl
  | cons b bs ih => simp [samplesOf_append, ih]

@[simp] theorem delayCount_byteTrace (b : Byte) (a : Bit) : delayCount (byteTrace b a) = 27 := by
  simp [byteTrace, byteCells, delayCount_append, byteBits, ackCell, delayCount]

@[simp] theorem samplesOf_byteTrace (b : Byte) (a : Bit) : samplesOf (byteTrace b a) = [a] := by
  simp [byteTrace, byteCells, samplesOf_append, samplesOf_flatMap_bitCell, ackCell, samplesOf]

@[simp] theorem replay_byteTrace (d : Drives) (b : Byte) (a : Bit) :
    replay d (byteTrace b a) = ⟨.drivenLow, .releasedHigh⟩ := by
  simp [byteTrace, replay_append]

theorem length_bytesTrace (bs : List Byte) (as : List Bit) (h : bs.length = as.length) :
    (bytesTrace bs as).length = 55 * bs.length := by
  induction bs generalizing as with
  | nil => rfl
  | cons b bs ih =>
    cases as with
    | nil => simp at h
    | cons a as => simp [bytesTrace, ih as (by simpa using h)]; omega

theorem delayCount_bytesTrace (bs : List Byte) (as : List Bit) (h : bs.length = as.length) :
    delayCount (bytesTrace bs as) = 27 * bs.length := by
  induction bs generalizing as with
  | nil => rfl
  | cons b bs ih =>
    cases as with
    | nil => simp at h
    | cons a as => simp [bytesTrace, delayCount_append, ih as (by simpa using h)]; omega

theorem samplesOf_bytesTrace (bs : List Byte) (as : List Bit) (h : bs.length = as.length) :
    samplesOf (bytesTrace bs as) = as := by
  induction bs generalizing as with
  | nil => cases as <;> simp_all [bytesTrace, samplesOf]
  | cons b bs ih =>
    cases as with
    | nil => simp at h
    | cons a as => simp [bytesTrace, samplesOf_append, ih as (by simpa using h)]

theorem replay_bytesTrace (bs : List Byte) (as : List Bit) :
    replay ⟨.drivenLow, .releasedHigh⟩ (bytesTrace bs as) = ⟨.drivenLow, .releasedHigh⟩ := by
  induction bs generalizing as with
  | nil => rfl
  | cons b bs ih =>
    cases as with
    | nil => rfl
    | cons a as => simp [bytesTrace, replay_append, ih as]

/-- A bit cell makes one mark, whatever follows it: no sample stands in its high phase. -/
theorem marksFrom_bitCell_append (x : Drive) (b : Bit) (es : List Event) :
    marksFrom ⟨.drivenLow, x⟩ (bitCell b ++ es) = .bit b none :: marksFrom ⟨.drivenLow, driveOfBit b⟩ es := by
  rcases bit_eq_zero_or_one b with rfl | rfl <;> cases x <;> rfl

/-- An acknowledgment cell makes one mark, which carries the sample, whatever follows it. -/
theorem marksFrom_ackCell_append (x : Drive) (a : Bit) (es : List Event) :
    marksFrom ⟨.drivenLow, x⟩ (ackCell a ++ es) =
      .bit 1 (some a) :: marksFrom ⟨.drivenLow, .releasedHigh⟩ es := by
  cases x <;> rfl

theorem marksFrom_flatMap_bitCell_append (bs : List Bit) (x : Drive) (es : List Event) :
    ∃ y, marksFrom ⟨.drivenLow, x⟩ (bs.flatMap bitCell ++ es) =
      (bs.map fun b => Mark.bit b none) ++ marksFrom ⟨.drivenLow, y⟩ es := by
  induction bs generalizing x with
  | nil => exact ⟨x, rfl⟩
  | cons b bs ih =>
    obtain ⟨y, hy⟩ := ih (driveOfBit b)
    exact ⟨y, by simp [marksFrom_bitCell_append, hy]⟩

/-- A byte makes nine marks, whatever follows it. -/
theorem marksFrom_byteTrace_append (x : Drive) (b : Byte) (a : Bit) (es : List Event) :
    marksFrom ⟨.drivenLow, x⟩ (byteTrace b a ++ es) =
      ((byteBits b).map fun c => Mark.bit c none) ++
        (.bit 1 (some a) :: marksFrom ⟨.drivenLow, .releasedHigh⟩ es) := by
  obtain ⟨y, hy⟩ := marksFrom_flatMap_bitCell_append (byteBits b) x (ackCell a ++ es)
  rw [byteTrace, byteCells, List.append_assoc, hy, marksFrom_ackCell_append]

theorem bitsSinceMark_append (n : Nat) (ms ks : List Mark) :
    bitsSinceMark n (ms ++ ks) = bitsSinceMark (bitsSinceMark n ms) ks := by
  induction ms generalizing n with
  | nil => rfl
  | cons m ms ih => cases m <;> simp [bitsSinceMark, ih]

/-- How many bits stand on the wire since the last mark does not depend on what a sample finds: traces append. -/
theorem bitsSinceMark_marksFrom_append (n : Nat) (d : Drives) (es fs : List Event) :
    bitsSinceMark n (marksFrom d (es ++ fs)) =
      bitsSinceMark (bitsSinceMark n (marksFrom d es)) (marksFrom (replay d es) fs) := by
  induction es generalizing n d with
  | nil => rfl
  | cons e es ih =>
    have h : ∀ k, bitsSinceMark k (eventMarks d e (es ++ fs)) = bitsSinceMark k (eventMarks d e es) := by
      intro k
      rcases e with (_ | _) | (_ | _) | _ | _ <;> simp only [eventMarks]
      all_goals split_ifs
      all_goals rfl
    rw [List.cons_append, marksFrom, marksFrom, bitsSinceMark_append, bitsSinceMark_append, h, ih, replay_cons]

theorem bitsSinceStart_append (group : Option (List Bit)) (ms ks : List Mark) :
    bitsSinceStart group (ms ++ ks) = bitsSinceStart (bitsSinceStart group ms) ks := by
  induction ms generalizing group with
  | nil => rfl
  | cons m ms ih => cases m <;> simp [bitsSinceStart, ih]

/-- Nor do the bits the master has put on the wire since the last START: traces append. -/
theorem bitsSinceStart_marksFrom_append (group : Option (List Bit)) (d : Drives) (es fs : List Event) :
    bitsSinceStart group (marksFrom d (es ++ fs)) =
      bitsSinceStart (bitsSinceStart group (marksFrom d es)) (marksFrom (replay d es) fs) := by
  induction es generalizing group d with
  | nil => rfl
  | cons e es ih =>
    have h : ∀ g, bitsSinceStart g (eventMarks d e (es ++ fs)) = bitsSinceStart g (eventMarks d e es) := by
      intro g
      rcases e with (_ | _) | (_ | _) | _ | _ <;> simp only [eventMarks]
      all_goals split_ifs
      all_goals rfl
    rw [List.cons_append, marksFrom, marksFrom, bitsSinceStart_append, bitsSinceStart_append, h, ih, replay_cons]

theorem openBits_append (es fs : List Event) :
    openBits (es ++ fs) = bitsSinceStart (openBits es) (marksFrom (replay Drives.released es) fs) :=
  bitsSinceStart_marksFrom_append _ _ _ _

/-- Right after `start()` no bit has been put, whatever came before it. -/
@[simp] theorem openBits_append_startTrace (es : List Event) : openBits (es ++ startTrace) = some [] := by
  rw [openBits_append]
  rcases replay Drives.released es with ⟨_ | _, _ | _⟩ <;> rfl

/-- A byte puts its eight bits and the released data line of the acknowledgment cell. -/
theorem bitsSinceStart_byteTrace (group : Option (List Bit)) (x : Drive) (b : Byte) (a : Bit) :
    bitsSinceStart group (marksFrom ⟨.drivenLow, x⟩ (byteTrace b a)) = group.map (· ++ (byteBits b ++ [1])) := by
  have h := marksFrom_byteTrace_append x b a []
  rw [List.append_nil] at h
  rw [h]
  cases group <;> simp [byteBits, bitsSinceStart]

/-- A read request is asked for only while the first byte is incomplete. -/
theorem readRequested_eq_none {trace : List Event} {g : List Bit} (h : openBits trace = some g) (h8 : 8 ≤ g.length)
    (bits : List Bit) : readRequested trace bits = none := by
  simp [readRequested, h, Nat.not_lt.2 h8]

/-- Once the first byte is complete, or with no transaction on the wire, no operation asks for a read. -/
theorem askedRead_eq_none {trace : List Event} (h : openBits trace = none ∨ ∃ g, openBits trace = some g ∧ 8 ≤ g.length)
    (i : Instr) : askedRead i trace = none := by
  rcases h with h | ⟨g, h, h8⟩
  · cases i <;> simp [askedRead, readRequested, h]
  · cases i <;> simp [askedRead, readRequested_eq_none h h8, h, Nat.not_lt.2 h8]

/-- What does not ask for a read completes no first byte on the wire with bit 0 set. -/
theorem readRequested_eq_none_of_askedRead {trace : List Event} {b : Byte}
    (h : askedRead (.writeByte b) trace = none) : readRequested trace (byteBits b) = none := by
  unfold askedRead at h
  cases hg : openBits trace with
  | none => simp [readRequested, hg]
  | some g =>
    simp only [hg] at h
    split_ifs at h
    exact h

/-- Right after `start()` a byte asks for a read exactly when its bit 0 is set. -/
theorem askedRead_writeByte_of_nil {trace : List Event} (h : openBits trace = some []) (b : Byte) :
    askedRead (.writeByte b) trace = if b.extractLsb' 0 1 = 1 then some b else none := by
  simp only [askedRead, readRequested, h, byteBits, byteBit]
  split_ifs <;> simp_all

@[simp] theorem byteOfBits_byteBits : ∀ b : Byte, byteOfBits (byteBits b) = b := by decide

end Sys2Proof.Machine
end

