-- ==== Sys2Proof/Laws/Frame.lean ====
section
/-!
SUPPORT. What the loops of `send_frame` do: the bytes they put in the call trace, the ticks and answers they use, and
what they leave unchanged.
-/

namespace Sys2Proof.Machine

/-- What the byte and value loops of `send_frame` leave unchanged. -/
def SameInCall (s t : State) : Prop :=
  t.cfg = s.cfg ∧ t.values = s.values ∧ t.resets = s.resets ∧ t.inbox = s.inbox ∧ t.result = s.result ∧
    t.busy = s.busy ∧ t.count = s.count

theorem SameInCall.refl (s : State) : SameInCall s s := ⟨rfl, rfl, rfl, rfl, rfl, rfl, rfl⟩

theorem SameInCall.trans {s t u : State} (h : SameInCall s t) (k : SameInCall t u) : SameInCall s u := by
  obtain ⟨h1, h2, h3, h4, h5, h6, h7⟩ := h
  obtain ⟨k1, k2, k3, k4, k5, k6, k7⟩ := k
  exact ⟨k1.trans h1, k2.trans h2, k3.trans h3, k4.trans h4, k5.trans h5, k6.trans h6, k7.trans h7⟩

/-- Between two bytes of a frame: the clock low, the data line released, phase BYTE_ACTIVE. -/
def BetweenBytes (s : State) : Prop := s.drv = ⟨.drivenLow, .releasedHigh⟩ ∧ s.phase = .byteActive

/-- One byte of a value, as the state it gives. -/
theorem sendValueByte_eq (s : State) (k : Nat) :
    sendValueByte s k =
      { s with
        drv := ⟨.drivenLow, .releasedHigh⟩
        phase := .byteActive
        bitI := 7
        byteReg := valueByte s.val k
        byteK := BitVec.ofNat 2 k
        ack := ackOf (byteAnswer (valueByte s.val k) s)
        ticks := s.ticks + 27
        trace := s.trace ++ byteTrace (valueByte s.val k) (byteAnswer (valueByte s.val k) s)
        envSda := s.envSda.tail } := by
  rw [sendValueByte, writeByteOp_eq]
  simp only [byteAnswer]

theorem foldl_sendValueByte_spec (ks : List Nat) (s : State) :
    ∃ acks : List Bit, acks.length = ks.length ∧
      (ks.foldl sendValueByte s).trace = s.trace ++ bytesTrace (ks.map (valueByte s.val)) acks ∧
      (ks.foldl sendValueByte s).ticks = s.ticks + 27 * ks.length ∧
      (ks.foldl sendValueByte s).envSda = s.envSda.drop ks.length ∧
      SameInCall s (ks.foldl sendValueByte s) ∧
      (BetweenBytes s → BetweenBytes (ks.foldl sendValueByte s)) := by
  induction ks generalizing s with
  | nil => exact ⟨[], rfl, by simp [bytesTrace], rfl, rfl, SameInCall.refl s, id⟩
  | cons k ks ih =>
    obtain ⟨acks, h1, h2, h3, h4, h5, h6⟩ := ih (sendValueByte s k)
    have hs : SameInCall s (sendValueByte s k) := by rw [sendValueByte_eq]; exact SameInCall.refl s
    have hb : BetweenBytes (sendValueByte s k) := by rw [sendValueByte_eq]; exact ⟨rfl, rfl⟩
    refine ⟨byteAnswer (valueByte s.val k) s :: acks, by simp [h1], ?_, ?_, ?_, hs.trans h5, fun _ => h6 hb⟩
    · rw [List.foldl_cons, h2]; simp [sendValueByte_eq, bytesTrace]
    · rw [List.foldl_cons, h3]; simp [sendValueByte_eq]; omega
    · rw [List.foldl_cons, h4]; simp [sendValueByte_eq]

/-- Everything the value loop does to the trace, the ticks and the answers, and what it leaves. -/
theorem sendValues_spec (i : Nat) (vs : List Value) (s : State) :
    ∃ acks : List Bit, acks.length = 4 * vs.length ∧
      (sendValues i vs s).trace = s.trace ++ bytesTrace (vs.flatMap valueBytes) acks ∧
      (sendValues i vs s).ticks = s.ticks + 108 * vs.length ∧
      (sendValues i vs s).envSda = s.envSda.drop (4 * vs.length) ∧
      SameInCall s (sendValues i vs s) ∧
      (BetweenBytes s → BetweenBytes (sendValues i vs s)) := by
  induction vs generalizing i s with
  | nil => exact ⟨[], rfl, by simp [sendValues, bytesTrace], rfl, rfl, SameInCall.refl s, id⟩
  | cons v vs ih =>
    obtain ⟨as, a1, a2, a3, a4, a5, a6⟩ := foldl_sendValueByte_spec [0, 1, 2, 3] (loadValue i v s)
    obtain ⟨bs, b1, b2, b3, b4, b5, b6⟩ := ih (i + 1) (sendValue (loadValue i v s))
    refine ⟨as ++ bs, ?_, ?_, ?_, ?_, ?_, fun h => b6 (a6 h)⟩
    · simp [a1, b1]; omega
    · rw [sendValues, b2, sendValue, a2, List.flatMap_cons, bytesTrace_append _ _ _ _ (by simp [valueBytes, a1])]
      simp [valueBytes]
    · rw [sendValues, b3, sendValue, a3]; simp; omega
    · rw [sendValues, b4, sendValue, a4]; simp [Nat.mul_add, Nat.add_comm]
    · exact SameInCall.trans (t := sendValue (loadValue i v s)) a5 b5

/-- The idle bus of R33, spelled out. -/
theorem busIdle_eq_true_iff (s : State) :
    busIdle s = true ↔ s.drv = ⟨.releasedHigh, .releasedHigh⟩ ∧ s.phase = .idle := by
  rw [busIdle, Bool.and_eq_true, decide_eq_true_iff, decide_eq_true_iff, Drives.released]

/-- What `send_frame` asks for at entry, spelled out. -/
theorem frameRefusal_eq_none_iff (n : Nat) (s : State) :
    frameRefusal n s = none ↔
      s.busy ≠ 1 ∧ busIdle s = true ∧ n ≤ 255 ∧ n ≤ s.values.length := by
  unfold frameRefusal maxCount
  split_ifs with h1 h2 h3 h4 <;> simp_all

/-- An operation behind a check completes exactly where the check finds nothing. -/
theorem guarded_eq_next_iff (why : Option Refusal) (after t : State) :
    guarded why after = .next t ↔ why = none ∧ t = after := by
  cases why <;> simp [guarded, eq_comm]

end Sys2Proof.Machine
end

