-- ==== Sys2Proof/Laws/Exec.lean ====
section
/-!
SUPPORT. What an operation that completes can have done, and what a step that completes can have done: each said once, so
that no proof over all operations or all steps unfolds `exec` or `step`.
-/

namespace Sys2Proof.Machine

/-- The check of `stop`, `write_bit`, `read_ack` and `write_byte` passes exactly inside the table of R127. -/
theorem transactionRefusal_eq_none_iff (i : Instr) (s : State) :
    transactionRefusal i s = none ↔ (s.phase = .started ∨ s.phase = .byteActive) ∧ s.drv.scl = .drivenLow := by
  unfold transactionRefusal
  split_ifs <;> simp_all

/-- The check of `start` passes exactly inside the table of R127. -/
theorem startRefusal_eq_none_iff (s : State) :
    startRefusal s = none ↔
      (s.phase = .idle ∧ s.drv = ⟨.releasedHigh, .releasedHigh⟩) ∨
      (s.phase = .byteActive ∧ s.drv = ⟨.drivenLow, .releasedHigh⟩ ∧ atByteBoundary s.trace = true) := by
  unfold startRefusal
  cases hp : s.phase <;> simp only [reduceCtorEq, false_and, true_and, or_false, false_or] <;> split_ifs <;> simp_all

/-- The read-request check passes exactly where the operation makes no first byte with bit 0 set. -/
theorem readRequestRefusal_eq_none_iff (i : Instr) (s : State) :
    readRequestRefusal i s = none ↔ askedRead i s.trace = none := Option.map_eq_none_iff

/-- An operation that completes was inside its check and gives the state its shared operation gives. -/
theorem exec_eq_next {i : Instr} {s t : State} (h : exec i s = .next t) :
    (∃ l, i = .driveLow l ∧ t = driveLow l s) ∨
    (∃ l, i = .releaseHigh l ∧ t = releaseHigh l s) ∨
    (∃ l, i = .sample l ∧ t = sampleLine l s) ∨
    (i = .delayBitTime ∧ t = delayBitTime s) ∨
    (i = .start ∧ startRefusal s = none ∧ t = startOp s) ∨
    (i = .stop ∧ transactionRefusal i s = none ∧ t = stopOp s) ∨
    (∃ b, i = .writeBit b ∧ transactionRefusal i s = none ∧ readRequestRefusal i s = none ∧ t = writeBitOp b s) ∨
    (i = .readAck ∧ transactionRefusal i s = none ∧ readRequestRefusal i s = none ∧ t = readAckOp s) ∨
    (∃ b, i = .writeByte b ∧ transactionRefusal i s = none ∧ readRequestRefusal i s = none ∧ t = writeByteOp b s) ∨
    (∃ n, i = .sendFrame n ∧ frameRefusal n s = none ∧ t = sendFrameOp n s) := by
  cases i <;>
    simp_all [exec, execDriveLow, execReleaseHigh, execSample, execDelayBitTime, execStart, execStop, execWriteBit,
      execReadAck, execWriteByte, execSendFrame, guarded_eq_next_iff, Option.or_eq_none_iff, and_assoc]

/-- A step that completes waited, performed the operation of a word, performed a frame, or reset the block. -/
theorem step_eq_next {s t : State} (h : step s = .next t) :
    (s.inbox = [] ∧ t = s) ∨
    (∃ w rest i, s.inbox = .operation w :: rest ∧ decode w = .ok i ∧ exec i { s with inbox := rest } = .next t) ∨
    (∃ vs n rest, s.inbox = .frame vs n :: rest ∧ 0 ≤ n ∧
      exec (.sendFrame n.toNat) { s with values := vs, inbox := rest } = .next t) ∨
    (∃ rest, s.inbox = .reset :: rest ∧ s.busy ≠ 1 ∧ t = resetAction { s with inbox := rest }) := by
  unfold step takeInput at h
  split at h
  · exact .inl ⟨‹_›, by cases h; rfl⟩
  · rename_i input rest hi
    cases input with
    | operation w =>
      simp only [serve, serveOperation] at h
      split at h
      · exact .inr (.inl ⟨w, rest, _, hi, ‹_›, h⟩)
      · cases h
    | frame vs n =>
      simp only [serve, serveFrame] at h
      split_ifs at h with hn
      exact .inr (.inr (.inl ⟨vs, n, rest, hi, Int.not_lt.1 hn, h⟩))
    | reset =>
      simp only [serve, serveReset] at h
      split_ifs at h with hb
      exact .inr (.inr (.inr ⟨rest, hi, hb, by cases h; rfl⟩))

end Sys2Proof.Machine
end

