-- ==== Sys2Proof/Laws/Words.lean ====
section
/-!
SUPPORT. The fields of an operation word built from its parts, and a word from its fields.
-/

namespace Sys2Proof

theorem opField_wordOf (op : BitVec 4) (arg : Byte) : opField (wordOf op arg) = op := by
  apply BitVec.eq_of_getLsbD_eq
  intro i hi
  simp only [opField, wordOf, BitVec.getLsbD_extractLsb', hi, decide_true, Bool.true_and, BitVec.getLsbD_append]
  rw [if_neg (by omega), if_neg (by omega)]
  congr 1
  omega

theorem zeroField_wordOf (op : BitVec 4) (arg : Byte) : zeroField (wordOf op arg) = 0 := by
  apply BitVec.eq_of_getLsbD_eq
  intro i hi
  simp only [zeroField, wordOf, BitVec.getLsbD_extractLsb', hi, decide_true, Bool.true_and, BitVec.getLsbD_append]
  rw [if_neg (by omega), if_pos (by omega)]
  simp

theorem argField_wordOf (op : BitVec 4) (arg : Byte) : argField (wordOf op arg) = arg := by
  apply BitVec.eq_of_getLsbD_eq
  intro i hi
  simp only [argField, wordOf, BitVec.getLsbD_extractLsb', hi, decide_true, Bool.true_and, BitVec.getLsbD_append]
  rw [if_pos (by omega), Nat.zero_add]

theorem argHighField_eq (w : Word) : argHighField w = (argField w).extractLsb' 1 7 := by
  apply BitVec.eq_of_getLsbD_eq
  intro i hi
  simp only [argHighField, argField, BitVec.getLsbD_extractLsb', hi, decide_true, Bool.true_and]
  simp [show 1 + i < 8 by omega]

theorem argLowField_eq (w : Word) : argLowField w = (argField w).extractLsb' 0 1 := by
  apply BitVec.eq_of_getLsbD_eq
  intro i hi
  simp only [argLowField, argField, BitVec.getLsbD_extractLsb', hi, decide_true, Bool.true_and]
  simp [show i < 8 by omega]

theorem argOfBit_of_high_zero : ∀ arg : Byte, arg.extractLsb' 1 7 = 0 → argOfBit (arg.extractLsb' 0 1) = arg := by
  decide

theorem bitOfLine_lineOfBit : ∀ b : Bit, bitOfLine (lineOfBit b) = b := by decide

theorem lineOfBit_bitOfLine (l : Line) : lineOfBit (bitOfLine l) = l := by cases l <;> rfl

/-- A word whose `zero` field is 0 is built from its two other fields. -/
theorem wordOf_fields (w : Word) (h : zeroField w = 0) : wordOf (opField w) (argField w) = w := by
  apply BitVec.eq_of_getLsbD_eq
  intro i hi
  simp only [wordOf, BitVec.getLsbD_append]
  rcases Nat.lt_or_ge i 8 with h8 | h8
  · simp [h8, argField]
  · rcases Nat.lt_or_ge i 12 with h12 | h12
    · have hz := congrArg (fun z => z.getLsbD (i - 8)) h
      simp only [zeroField, BitVec.getLsbD_extractLsb', show i - 8 < 4 by omega, decide_true, Bool.true_and,
        show 8 + (i - 8) = i by omega] at hz
      rw [if_neg (by omega), if_pos (by omega), hz]
    · rw [if_neg (by omega), if_neg (by omega)]
      simp [opField, show i - 8 - 4 < 4 by omega, show 12 + (i - 8 - 4) = i by omega]

theorem wellFormed_sendFrame_iff (n : Nat) : (Instr.sendFrame n).wellFormed = true ↔ n ≤ 255 := decide_eq_true_iff

/-- The ten rows of R79 do not overlap: two of them never match one word, since their `match` values differ in a bit
both masks cover. -/
theorem opRows_disjoint :
    opRows.Pairwise fun r q => r.pattern &&& (r.mask &&& q.mask) ≠ q.pattern &&& (r.mask &&& q.mask) := by
  decide

end Sys2Proof
end

