-- ==== Sys2Proof/Laws/PerInstr.lean ====
section
/-!
SUPPORT. One statement for each operation, about its word: the word of a well-formed operation selects the operation's own
row of spec/30_encoding.md R79, and its `zero` field is 0.
-/

namespace Sys2Proof.Laws.Row

/-- The word of a well-formed operation selects the row R79 prints for it, with `zero[11:8]` 0. -/
def Statement (i : Instr) : Prop :=
  i.wellFormed = true → (opRow i).selects (encode i) = true ∧ zeroField (encode i) = 0

/-- Words of the two rows whose operand is the whole of `arg`. -/
theorem wordOf_and_mask (op : BitVec 4) (arg : Byte) : wordOf op arg &&& 0xFF00 = wordOf op 0 := by
  apply BitVec.eq_of_getLsbD_eq
  intro i hi
  rw [BitVec.getLsbD_and, wordOf, wordOf, BitVec.getLsbD_append, BitVec.getLsbD_append, BitVec.getLsbD_append,
    BitVec.getLsbD_append]
  interval_cases i <;> simp

theorem driveLow (line : Line) : Statement (.driveLow line) := fun _ => by cases line <;> decide

theorem releaseHigh (line : Line) : Statement (.releaseHigh line) := fun _ => by cases line <;> decide

theorem sample (line : Line) : Statement (.sample line) := fun _ => by cases line <;> decide

theorem delayBitTime : Statement .delayBitTime := fun _ => by decide

theorem start : Statement .start := fun _ => by decide

theorem stop : Statement .stop := fun _ => by decide

theorem writeBit (bit : Bit) : Statement (.writeBit bit) := fun _ => by revert bit; decide

theorem readAck : Statement .readAck := fun _ => by decide

theorem writeByte (byte : Byte) : Statement (.writeByte byte) := fun _ =>
  ⟨by simp only [opRow, OpRow.selects, encode, wordOf_and_mask]; decide, zeroField_wordOf _ _⟩

theorem sendFrame (count : Nat) : Statement (.sendFrame count) := fun _ =>
  ⟨by simp only [opRow, OpRow.selects, encode, wordOf_and_mask]; decide, zeroField_wordOf _ _⟩

end Sys2Proof.Laws.Row
end

