-- ==== Sys2Proof/Tests/Slice0.lean ====
section
/-!
SUPPORT. Tests of the model. Every expected result is transcribed from spec/95_test_vectors.md (its id stands in the
theorem's comment) or, for words, written out bit by bit from spec/30_encoding.md R79. Then one witness for every
statement that has hypotheses, and for every clause of it: a concrete state and operands that meet them together.
-/

namespace Sys2Proof.Tests

open Sys2Proof.Machine

/-! ## Well-formedness -/

/-- A count above 255 is ill formed (X1); the other checks cannot fail, their operands being typed. -/
theorem test_wellFormed_refuses_256 : (Instr.sendFrame 256).wellFormed = false := by decide

theorem test_wellFormed_takes_255 : (Instr.sendFrame 255).wellFormed = true := by decide

/-! ## Words, `op[15:12]`, `zero[11:8]`, `arg[7:0]` from left to right -/

theorem test_decode_driveLow :
    decode 0b0000_0000_00000000 = .ok (.driveLow .scl) ∧ decode 0b0000_0000_00000001 = .ok (.driveLow .sda) := by decide

theorem test_decode_releaseHigh :
    decode 0b0001_0000_00000000 = .ok (.releaseHigh .scl) ∧
    decode 0b0001_0000_00000001 = .ok (.releaseHigh .sda) := by decide

theorem test_decode_sample :
    decode 0b0010_0000_00000000 = .ok (.sample .scl) ∧ decode 0b0010_0000_00000001 = .ok (.sample .sda) := by decide

theorem test_decode_delayBitTime : decode 0b0011_0000_00000000 = .ok .delayBitTime := by decide

theorem test_decode_start : decode 0b0100_0000_00000000 = .ok .start := by decide

theorem test_decode_stop : decode 0b0101_0000_00000000 = .ok .stop := by decide

theorem test_decode_writeBit :
    decode 0b0110_0000_00000000 = .ok (.writeBit 0) ∧ decode 0b0110_0000_00000001 = .ok (.writeBit 1) := by decide

theorem test_decode_readAck : decode 0b0111_0000_00000000 = .ok .readAck := by decide

theorem test_decode_writeByte :
    decode 0b1000_0000_00010000 = .ok (.writeByte 0x10) ∧ decode 0b1000_0000_10100101 = .ok (.writeByte 0xA5) := by
  decide

theorem test_decode_sendFrame :
    decode 0b1001_0000_00000010 = .ok (.sendFrame 2) ∧ decode 0b1001_0000_11111111 = .ok (.sendFrame 255) := by decide

/-- X11 and the last row of section 3.7. -/
theorem test_decode_refuses_no_such_operation :
    decode 0xA000 = .error (.noSuchOperation 0xA000) ∧ decode 0xF000 = .error (.noSuchOperation 0xF000) := by decide

/-- X12, X13, X14 and `0x3001` of section 3.7. -/
theorem test_decode_refuses_reserved_bits :
    decode 0x0002 = .error (.reservedBits 0x0002) ∧ decode 0x4001 = .error (.reservedBits 0x4001) ∧
    decode 0x9102 = .error (.reservedBits 0x9102) ∧ decode 0x3001 = .error (.reservedBits 0x3001) := by decide

theorem test_encode :
    encode (.driveLow .sda) = 0x0001 ∧ encode (.releaseHigh .scl) = 0x1000 ∧ encode (.sample .sda) = 0x2001 ∧
    encode .delayBitTime = 0x3000 ∧ encode .start = 0x4000 ∧ encode .stop = 0x5000 ∧ encode (.writeBit 1) = 0x6001 ∧
    encode .readAck = 0x7000 ∧ encode (.writeByte 0xFF) = 0x80FF ∧ encode (.sendFrame 2) = 0x9002 := by decide

/-! ## States the tests start from, and what they look at -/

/-- What a run leaves, if it leaves anything. -/
def post : Host.Outcome State Fault Refusal → Option State
  | .next t => some t
  | .fault _ => none
  | .refused _ => none

/-- Why a run was refused, if it was. -/
def why : Host.Outcome State Fault Refusal → Option Refusal
  | .next _ => none
  | .fault _ => none
  | .refused r => some r

/-- The reset state with the answers a test bench feeds (spec/95_test_vectors.md section 1). -/
def idleBus (answers : List Bit) : State := { State.reset with envSda := answers }

/-- The same with the caller's sequence. -/
def frameBus (values : List Value) (answers : List Bit) : State :=
  { State.reset with values := values, envSda := answers }

/-- Just after `start()`. -/
def startedBus (answers : List Bit) : State :=
  { State.reset with
    drv := ⟨.drivenLow, .drivenLow⟩, phase := .started, ticks := 3, trace := startTrace, envSda := answers }

/-- Just after `start(); write_byte(0x10)`, acknowledged. -/
def betweenBytes (answers : List Bit) : State :=
  { State.reset with
    drv := ⟨.drivenLow, .releasedHigh⟩, phase := .byteActive, ticks := 30,
    trace := startTrace ++ byteTrace 0x10 0, envSda := answers }

/-- After `start()` and seven `write_bit` calls with the upper bits of 0x11. -/
def sevenBits : State :=
  { State.reset with
    drv := ⟨.drivenLow, .drivenLow⟩, phase := .started, ticks := 24,
    trace := startTrace ++ [0, 0, 0, 1, 0, 0, 0].flatMap bitCell }

/-- After `start()`, eight `write_bit` calls with the bits of 0x10 and `read_ack()`, acknowledged: the phase is still
STARTED. -/
def byteFromBits (answers : List Bit) : State :=
  { State.reset with
    drv := ⟨.drivenLow, .releasedHigh⟩, phase := .started, ticks := 30,
    trace := startTrace ++ byteCells 0x10 ++ ackCell 0, envSda := answers }

/-- After `start()` and `read_ack()`: one bit on the wire, no byte written. -/
def ackFirst : State :=
  { State.reset with
    drv := ⟨.drivenLow, .releasedHigh⟩, phase := .started, ticks := 6, trace := startTrace ++ ackCell 0 }

/-- The letters an operation adds to a call trace. -/
def addedLetters (s : State) (i : Instr) : Option (List Char) :=
  (post (exec i s)).map fun t => letters (t.trace.drop s.trace.length)

/-- The transitions an operation makes, with ticks counted from its start. -/
def addedTransitions (s : State) (i : Instr) : Option (List Transition) :=
  (post (exec i s)).map fun t => transitionsFrom s.drv 0 (t.trace.drop s.trace.length)

/-! ## Line Driver -/

/-- L2: the clock line driven low makes one transition. -/
theorem test_driveLow_scl :
    (post (exec (.driveLow .scl) (idleBus []))).map State.drv = some ⟨.drivenLow, .releasedHigh⟩ ∧
    addedTransitions (idleBus []) (.driveLow .scl) = some [⟨0, .scl, .drivenLow⟩] := by decide

/-- L3: a line that is low already makes none, and the event is emitted. -/
theorem test_driveLow_sda_redundant :
    addedLetters (startedBus []) (.driveLow .sda) = some ['d'] ∧
    addedTransitions (startedBus []) (.driveLow .sda) = some [] := by decide

/-- L7. -/
theorem test_releaseHigh_sda :
    (post (exec (.releaseHigh .sda) (startedBus []))).map State.drv = some ⟨.drivenLow, .releasedHigh⟩ ∧
    addedTransitions (startedBus []) (.releaseHigh .sda) = some [⟨0, .sda, .releasedHigh⟩] := by decide

/-- L6. -/
theorem test_releaseHigh_scl_redundant :
    addedLetters (idleBus []) (.releaseHigh .scl) = some ['C'] ∧
    addedTransitions (idleBus []) (.releaseHigh .scl) = some [] := by decide

/-- L9, L10, L11: the level is the wired AND of drive state and contribution. -/
theorem test_sample_sda :
    addedLetters (idleBus [1]) (.sample .sda) = some ['?', '1'] ∧
    addedLetters (idleBus [0]) (.sample .sda) = some ['?', '0'] ∧
    addedLetters (startedBus [1]) (.sample .sda) = some ['?', '0'] := by decide

/-- L13, L14: the clock line reads the master's own drive state, and has no letter. -/
theorem test_sample_scl :
    (post (exec (.sample .scl) (idleBus []))).map State.trace = some [.sample .scl 1] ∧
    level .scl (startedBus []) = 0 ∧ addedLetters (startedBus []) (.sample .scl) = some [] := by decide

/-- L15. -/
theorem test_delayBitTime :
    (post (exec .delayBitTime (idleBus []))).map State.ticks = some 1 ∧
    addedLetters (idleBus []) .delayBitTime = some ['.'] := by decide

/-! ## Protocol Engine -/

/-- E1. -/
theorem test_start_from_idle :
    addedLetters (idleBus []) .start = some ['D', 'C', '.', 'd', '.', 'c', '.'] ∧
    addedTransitions (idleBus []) .start = some [⟨1, .sda, .drivenLow⟩, ⟨2, .scl, .drivenLow⟩] := by decide

/-- E2. -/
theorem test_start_repeated :
    (post (exec .start (betweenBytes []))).map State.phase = some .started ∧
    addedTransitions (betweenBytes []) .start =
      some [⟨0, .scl, .releasedHigh⟩, ⟨1, .sda, .drivenLow⟩, ⟨2, .scl, .drivenLow⟩] := by decide

/-- E3. -/
theorem test_stop_after_byte :
    addedLetters (betweenBytes []) .stop = some ['d', '.', 'C', '.', 'D', '.'] ∧
    addedTransitions (betweenBytes []) .stop =
      some [⟨0, .sda, .drivenLow⟩, ⟨1, .scl, .releasedHigh⟩, ⟨2, .sda, .releasedHigh⟩] := by decide

/-- E4. -/
theorem test_stop_after_start :
    (post (exec .stop (startedBus []))).map State.phase = some .idle ∧
    addedTransitions (startedBus []) .stop = some [⟨1, .scl, .releasedHigh⟩, ⟨2, .sda, .releasedHigh⟩] := by decide

/-- E6. -/
theorem test_writeBit_zero :
    addedLetters (betweenBytes []) (.writeBit 0) = some ['d', '.', 'C', '.', 'c', '.'] ∧
    addedTransitions (betweenBytes []) (.writeBit 0) =
      some [⟨0, .sda, .drivenLow⟩, ⟨1, .scl, .releasedHigh⟩, ⟨2, .scl, .drivenLow⟩] := by decide

/-- E7. -/
theorem test_writeBit_one :
    addedLetters (startedBus []) (.writeBit 1) = some ['D', '.', 'C', '.', 'c', '.'] ∧
    (post (exec (.writeBit 1) (startedBus []))).map State.phase = some .started := by decide

/-- E9. -/
theorem test_readAck_acknowledged :
    addedLetters (startedBus [0]) .readAck = some ['D', '.', 'C', '?', '0', '.', 'c', '.'] ∧
    (post (exec .readAck (startedBus [0]))).map State.ack = some 1 := by decide

/-- E12. -/
theorem test_readAck_not_acknowledged :
    addedTransitions (betweenBytes [1]) .readAck = some [⟨1, .scl, .releasedHigh⟩, ⟨2, .scl, .drivenLow⟩] ∧
    (post (exec .readAck (betweenBytes [1]))).map State.ack = some 0 := by decide

/-- B1: the call trace and the three transitions of the data line. -/
theorem test_writeByte_address :
    addedLetters (startedBus [0]) (.writeByte 0x10) =
      some ['d', '.', 'C', '.', 'c', '.', 'd', '.', 'C', '.', 'c', '.', 'd', '.', 'C', '.', 'c', '.',
            'D', '.', 'C', '.', 'c', '.', 'd', '.', 'C', '.', 'c', '.', 'd', '.', 'C', '.', 'c', '.',
            'd', '.', 'C', '.', 'c', '.', 'd', '.', 'C', '.', 'c', '.', 'D', '.', 'C', '?', '0', '.', 'c', '.'] ∧
    (addedTransitions (startedBus [0]) (.writeByte 0x10)).map (·.filter (·.line = .sda)) =
      some [⟨9, .sda, .releasedHigh⟩, ⟨12, .sda, .drivenLow⟩, ⟨24, .sda, .releasedHigh⟩] := by decide

/-- The byte of B6, entered between bytes as the note below the table allows; and 0x11 after a first byte put together
from bits, a second byte and so no read request (R81, R74): what the observer reads. -/
theorem test_writeByte_second_byte :
    (post (exec (.writeByte 0xA5) (betweenBytes [1]))).map (fun t => observe t.trace) =
      some [.start, .byte 0x10 0, .byte 0xA5 1] ∧
    (post (exec (.writeByte 0x11) (byteFromBits [0]))).map (fun t => observe t.trace) =
      some [.start, .byte 0x10 0, .byte 0x11 0] := by decide

/-! ## Operand assembly -/

/-- S1, S2, S3, V9, V16: the address byte and the bytes of a value. -/
theorem test_bytes :
    addrByte = 0x10 ∧ valueBytes (bits32 (-1)) = [0xFF, 0xFF, 0xFF, 0xFF] ∧
    valueBytes (bits32 305419896) = [0x78, 0x56, 0x34, 0x12] ∧
    valueBytes (bits32 16777216) = [0x00, 0x00, 0x00, 0x01] ∧
    valueBytes (bits32 (-256)) = [0x00, 0xFF, 0xFF, 0xFF] := by decide

/-- V10, V11: the bits of the first byte sent. -/
theorem test_bits :
    byteBits (valueByte (bits32 305419896) 0) = [0, 1, 1, 1, 1, 0, 0, 0] ∧
    byteBits (valueByte (bits32 (-305419896)) 0) = [1, 0, 0, 0, 1, 0, 0, 0] := by decide

/-! ## Frame Transmitter -/

/-- P2: the address byte not acknowledged. -/
theorem test_sendFrame_absent :
    (post (exec (.sendFrame 2) (frameBus [1, 2] [1]))).map
        (fun t => (observe t.trace, t.ticks, t.result, t.busy, t.trace.length)) =
      some ([.start, .byte 0x10 1, .stop], 33, 1, 0, 68) := by decide +kernel

/-- P3: two data bytes not acknowledged, which changes nothing else. -/
theorem test_sendFrame_data_not_acknowledged :
    (post (exec (.sendFrame 1) (frameBus [bits32 305419896] [0, 0, 1, 0, 1]))).map
        (fun t => (observe t.trace, t.ticks, t.result, t.trace.length, (transitions t).length)) =
      some ([.start, .byte 0x10 0, .byte 0x78 0, .byte 0x56 1, .byte 0x34 0, .byte 0x12 1, .stop], 141, 0, 288, 122) := by
  decide +kernel

/-! ## Wire observer -/

/-- O1, O2, O5: what the observer makes of some primitive sequences. -/
theorem test_observer :
    observe (startTrace ++ stopTrace) = [.start, .stop] ∧ observe stopTrace = [.start, .stop] ∧
    observe [.driveLow .scl, .delay, .releaseHigh .scl, .delay, .driveLow .scl, .delay, .releaseHigh .scl] = [] := by
  decide

/-- R78: the ninth bit is the level at the clock's rise. Inside `stop` that is 0, and a sample after the STOP edge is
not it; a sample in the high phase of a released line is. -/
theorem test_observer_ninth_bit :
    observe (startTrace ++ byteCells 0x5A ++ stopTrace ++ [.sample .sda 1]) = [.start, .byte 0x5A 0, .stop] ∧
    observe (startTrace ++ byteCells 0x5A ++ [.releaseHigh .sda, .releaseHigh .scl, .releaseHigh .sda, .sample .sda 0]) =
      [.start, .byte 0x5A 0] := by decide

/-- P6: the one data bit and the acknowledgment cell before the stop are no byte. -/
theorem test_observer_drops_short_group :
    observe (startTrace ++ bitCell 1 ++ ackCell 1 ++ stopTrace) = [.start, .stop] := by decide

/-! ## Witnesses: for each statement of Certificates/Slice0/Obligations.lean, a state and operands meeting its hypotheses -/

theorem witness_DriveLowPullsOneLine : ∃ t, exec (.driveLow .scl) State.reset = .next t := ⟨_, rfl⟩

theorem witness_ReleaseHighFreesOneLine : ∃ t, exec (.releaseHigh .sda) (startedBus []) = .next t := ⟨_, rfl⟩

theorem witness_LevelIsTheWiredAnd :
    (startedBus []).drv.get .sda = .drivenLow ∧ State.reset.drv.get .sda = .releasedHigh ∧
    State.reset.drv.get .scl = .releasedHigh := by decide

theorem witness_StartBuildsTheStartCondition_from_idle :
    State.reset.phase = .idle ∧ State.reset.drv = ⟨.releasedHigh, .releasedHigh⟩ := by decide

theorem witness_StartBuildsTheStartCondition_between_bytes :
    (betweenBytes []).phase = .byteActive ∧ atByteBoundary (betweenBytes []).trace = true ∧
    (betweenBytes []).drv = ⟨.drivenLow, .releasedHigh⟩ := by decide

theorem witness_StopBuildsTheStopCondition :
    ((startedBus []).phase = .started ∧ (startedBus []).drv.scl = .drivenLow ∧
      (startedBus []).drv.sda = .drivenLow) ∧
    ((betweenBytes []).phase = .byteActive ∧ (betweenBytes []).drv.scl = .drivenLow ∧
      (betweenBytes []).drv.sda = .releasedHigh) := by decide

theorem witness_WriteBitMakesOneBitCell :
    ((startedBus []).phase = .started ∧ (startedBus []).drv.scl = .drivenLow ∧
      askedRead (.writeBit 1) (startedBus []).trace = none) ∧
    (sevenBits.phase = .started ∧ sevenBits.drv.scl = .drivenLow ∧ askedRead (.writeBit 0) sevenBits.trace = none) ∧
    ((betweenBytes []).phase = .byteActive ∧ (betweenBytes []).drv.scl = .drivenLow ∧
      askedRead (.writeBit 1) (betweenBytes []).trace = none) := by decide

theorem witness_ReadAckSamplesOnce :
    ((startedBus []).phase = .started ∧ (startedBus []).drv.scl = .drivenLow ∧
      askedRead .readAck (startedBus []).trace = none) ∧
    ((betweenBytes [1]).phase = .byteActive ∧ (betweenBytes [1]).drv.scl = .drivenLow ∧
      askedRead .readAck (betweenBytes [1]).trace = none) := by decide

/-- The largest first byte that is no read request, and the largest byte after it. -/
theorem witness_WriteByteMakesNineCells :
    ((startedBus []).phase = .started ∧ (startedBus []).drv.scl = .drivenLow ∧
      askedRead (.writeByte 0xFE) (startedBus []).trace = none) ∧
    ((betweenBytes []).phase = .byteActive ∧ (betweenBytes []).drv.scl = .drivenLow ∧
      askedRead (.writeByte 0xFF) (betweenBytes []).trace = none) := by decide

/-- Each engine operation inside the table, then each outside it. -/
theorem witness_EngineKeepsItsTable :
    (engineEntry .start State.reset = true ∧ engineEntry .start (betweenBytes []) = true ∧
      engineEntry .stop (startedBus []) = true ∧ engineEntry (.writeBit 1) (startedBus []) = true ∧
      engineEntry .readAck (betweenBytes []) = true ∧ engineEntry (.writeByte 0x10) (startedBus []) = true ∧
      engineEntry (.writeByte 0xFF) (betweenBytes []) = true) ∧
    (engineEntry .start (startedBus []) = false ∧ engineEntry .stop State.reset = false ∧
      engineEntry (.writeBit 1) State.reset = false ∧ engineEntry .readAck State.reset = false ∧
      engineEntry (.writeByte 0x10) State.reset = false ∧ engineEntry (.writeByte 0x11) (startedBus []) = false) := by
  decide

/-- Inside `stop`, where no operation boundary is. -/
def insideStop : State := { startedBus [] with phase := .stopped }

/-- X8, and the phase that holds at no operation boundary. -/
theorem witness_EngineRefusalsNameTheirReason_phase :
    (startedBus []).phase = .started ∧ insideStop.phase = .stopped := by decide

/-- X4 to X7: outside a transaction. -/
theorem witness_EngineRefusalsNameTheirReason_idle :
    State.reset.phase = .idle ∧ Instr.stop.layer = .protocolEngine ∧ Instr.stop ≠ .start ∧
    (Instr.writeByte 0x10).layer = .protocolEngine ∧ (Instr.writeBit 1).layer = .protocolEngine ∧
    Instr.readAck.layer = .protocolEngine := by decide

/-- The clock released by the Line Driver inside a transaction. -/
def clockReleased : State := { betweenBytes [] with drv := ⟨.releasedHigh, .releasedHigh⟩ }

theorem witness_EngineRefusalsNameTheirReason_lines :
    clockReleased.phase = .byteActive ∧ clockReleased.drv.scl = .releasedHigh ∧
    clockReleased.drv ≠ ⟨.drivenLow, .releasedHigh⟩ := by decide

/-- The data line driven low by the Line Driver on an idle bus. -/
def dataLowIdle : State := { State.reset with drv := ⟨.releasedHigh, .drivenLow⟩ }

theorem witness_EngineRefusalsNameTheirReason_start_lines :
    dataLowIdle.phase = .idle ∧ dataLowIdle.drv ≠ ⟨.releasedHigh, .releasedHigh⟩ := by decide

/-- One bit into the second byte. -/
def midByte : State := { betweenBytes [] with trace := startTrace ++ byteTrace 0x10 0 ++ bitCell 1 }

theorem witness_EngineRefusalsNameTheirReason_boundary :
    midByte.phase = .byteActive ∧ midByte.drv = ⟨.drivenLow, .releasedHigh⟩ ∧
    atByteBoundary midByte.trace = false := by decide

/-- The X vectors of section 3.6 that the engine refuses, one step each; and the other ways to a first byte with bit 0 set
(R81): its eighth bit by `write_bit` or by `read_ack`, and `write_byte` after a bit already on the wire. -/
theorem test_engine_refusals :
    why (exec .stop State.reset) = some (.outOfPhase .stop .idle) ∧
    why (exec (.writeByte 0x10) State.reset) = some (.outOfPhase (.writeByte 0x10) .idle) ∧
    why (exec (.writeBit 1) State.reset) = some (.outOfPhase (.writeBit 1) .idle) ∧
    why (exec .readAck State.reset) = some (.outOfPhase .readAck .idle) ∧
    why (exec .start (startedBus [])) = some (.outOfPhase .start .started) ∧
    why (exec (.writeByte 0x11) (startedBus [])) = some (.readRequest 0x11) ∧
    why (exec (.writeBit 1) sevenBits) = some (.readRequest 0x11) ∧ why (exec (.writeBit 0) sevenBits) = none ∧
    why (exec .readAck sevenBits) = some (.readRequest 0x11) ∧
    why (exec (.writeByte 0x11) ackFirst) = some (.readRequest 0x11) ∧
    why (exec .start midByte) = some .notAtByteBoundary := by decide

/-- X9, `write_byte(0x11)` right after `start`; and after seven bits, the last count below eight. -/
theorem witness_ReadRequestIsRefused_first_byte :
    (startedBus []).phase = .started ∧ (startedBus []).drv.scl = .drivenLow ∧
    (0x11 : Byte).extractLsb' 0 1 = 1 ∧ (∃ g, openBits (startedBus []).trace = some g ∧ g.length < 8) ∧
    ∃ g, openBits sevenBits.trace = some g ∧ g.length < 8 :=
  ⟨rfl, rfl, by decide, ⟨[], by decide⟩, [0, 0, 0, 1, 0, 0, 0], by decide⟩

/-- After seven bits, bytes with bit 0 clear whose first bit is the eighth, 1 in 0x80 and 0 in 0x7E. -/
theorem witness_ReadRequestIsRefused_eighth_bit_of_byte :
    ∃ g, openBits sevenBits.trace = some g ∧ g.length < 8 ∧
      ((0x80 : Byte).extractLsb' 0 1 = 0 ∧ (g ++ byteBits 0x80)[7]? = some 1) ∧
      (0x7E : Byte).extractLsb' 0 1 = 0 ∧ (g ++ byteBits 0x7E)[7]? = some 0 :=
  ⟨[0, 0, 0, 1, 0, 0, 0], by decide⟩

theorem witness_ReadRequestIsRefused_eighth_bit :
    sevenBits.phase = .started ∧ sevenBits.drv.scl = .drivenLow ∧
    ∃ g, openBits sevenBits.trace = some g ∧ g.length = 7 := ⟨rfl, rfl, [0, 0, 0, 1, 0, 0, 0], by decide⟩

/-- After six bits, the last count below seven. -/
theorem witness_ReadRequestIsRefused_earlier_bit :
    ∃ g, openBits (startTrace ++ [0, 0, 0, 1, 0, 0].flatMap bitCell) = some g ∧ g.length < 7 :=
  ⟨[0, 0, 0, 1, 0, 0], by decide⟩

/-- After eight bits, the first count that completes the byte; and with no transaction on the wire. -/
theorem witness_ReadRequestIsRefused_later :
    (∃ g, openBits (startTrace ++ byteCells 0x10) = some g ∧ 8 ≤ g.length) ∧
    openBits State.reset.trace = none := ⟨⟨[0, 0, 0, 1, 0, 0, 0, 0], by decide⟩, by decide⟩

theorem witness_EngineCost :
    Instr.start.layer = .protocolEngine ∧ engineEntry .start State.reset = true ∧
    engineEntry .stop (betweenBytes []) = true ∧ engineEntry (.writeBit 0) (betweenBytes []) = true ∧
    engineEntry .readAck (startedBus []) = true ∧ engineEntry (.writeByte 0x00) (startedBus []) = true := by decide

theorem witness_OnlyStartAndStopMoveDataWhileClockHigh :
    (engineEntry .start State.reset = true ∧ State.reset.phase = .idle) ∧
    (engineEntry .start (betweenBytes []) = true ∧ (betweenBytes []).phase = .byteActive) ∧
    engineEntry .stop (startedBus []) = true ∧ engineEntry (.writeBit 1) (startedBus []) = true ∧
    engineEntry .readAck (startedBus []) = true ∧ engineEntry (.writeByte 0xFE) (startedBus []) = true := by decide

theorem witness_WriteByteReadsAsItsByte :
    engineEntry (.writeByte 0x10) (startedBus [0]) = true ∧
    engineEntry (.writeByte 0xFF) (betweenBytes [1]) = true := by decide

theorem witness_RepeatedStartFollowsAByte :
    (Bookkeeping (startedBus []) ∧ atByteBoundary (startedBus []).trace = true ∧
      engineEntry (.writeByte 0x10) (startedBus []) = true) ∧
    (Bookkeeping (betweenBytes []) ∧ atByteBoundary (betweenBytes []).trace = true ∧
      engineEntry (.writeByte 0xFF) (betweenBytes []) = true) := by decide

theorem witness_ValueBytesRoundTrip :
    ((-2 : Int) ^ 31 ≤ -2 ^ 31 ∧ (-2 ^ 31 : Int) < 2 ^ 31) ∧
    ((-2 ^ 31 : Int) ≤ 2 ^ 31 - 1 ∧ (2 ^ 31 - 1 : Int) < 2 ^ 31) := by decide

theorem witness_FrameEntry_empty : FrameEntry 0 State.reset := by decide

theorem witness_FrameEntry_two : FrameEntry 2 (frameBus [1, 2] []) := by decide

/-- The largest frame. -/
theorem witness_FrameEntry_largest : FrameEntry 255 (frameBus (List.replicate 255 0) []) :=
  ⟨rfl, rfl, rfl, by decide, List.length_replicate.ge⟩

theorem witness_SendFrameRunsToItsEnd : FrameEntry 2 (frameBus [1, 2] [0, 0, 0, 0, 0, 0, 0, 0, 0]) := by decide

theorem witness_AbsentPeripheralEndsTheFrame :
    FrameEntry 2 (frameBus [1, 2] [1]) ∧
    (frameBus [1, 2] [1]).envSda.headD (Config.envSda (frameBus [1, 2] [1]).resets
      ((frameBus [1, 2] [1]).trace ++ startTrace ++ byteCells 0x10 ++
        [.releaseHigh .sda, .delay, .releaseHigh .scl])) = 1 := by
  decide

/-- Both results occur: the clause for 1 is F2's, the clause for 0 F1's. -/
theorem witness_SendFrameEmitsOneFrame :
    FrameEntry 0 (frameBus [] [1]) ∧
    (post (exec (.sendFrame 0) (frameBus [] [1]))).map State.result = some 1 ∧
    FrameEntry 0 (frameBus [] [0]) ∧
    (post (exec (.sendFrame 0) (frameBus [] [0]))).map State.result = some 0 := by decide +kernel

/-- The clause for 0 with a value sent (F3), the clause for 1 with a value supplied and none sent (F4). -/
theorem witness_SendFrameCost :
    FrameEntry 1 (frameBus [7] [0, 0, 0, 0, 0]) ∧
    (post (exec (.sendFrame 1) (frameBus [7] [0, 0, 0, 0, 0]))).map State.result = some 0 ∧
    FrameEntry 1 (frameBus [7] [1]) ∧
    (post (exec (.sendFrame 1) (frameBus [7] [1]))).map State.result = some 1 := by decide +kernel

theorem witness_DataAcknowledgmentsAreIgnored : FrameEntry 1 (frameBus [7] []) := by decide

/-- F8: an element past the count. -/
theorem witness_ElementsPastTheCountAreNotRead :
    FrameEntry 2 (frameBus [1, 2, 3] []) ∧ 2 ≤ ([1, 2] : List Value).length ∧
    ([1, 2] : List Value).take 2 = (frameBus [1, 2, 3] []).values.take 2 := by decide

theorem witness_EmptyFrameIsAPresenceProbe : FrameEntry 0 State.reset := by decide

theorem witness_SendFrameRefinesItsEngineProgram :
    FrameEntry 1 (frameBus [bits32 305419896] [0, 0, 1, 0, 1]) := by decide

/-- A state no operation boundary of a run has: a call in progress (X10, X15). -/
def callInProgress : State := { State.reset with busy := 1 }

/-- One state for each clause, at its boundary: X10, U14, X1 (256), X2 (3 of 2). -/
theorem witness_SendFrameRefusals :
    callInProgress.busy = 1 ∧
    (dataLowIdle.busy = 0 ∧ ¬(dataLowIdle.drv = ⟨.releasedHigh, .releasedHigh⟩ ∧ dataLowIdle.phase = .idle)) ∧
    (State.reset.busy = 0 ∧ State.reset.drv = ⟨.releasedHigh, .releasedHigh⟩ ∧ State.reset.phase = .idle ∧
      255 < 256) ∧
    ((frameBus [1, 2] []).busy = 0 ∧ (frameBus [1, 2] []).drv = ⟨.releasedHigh, .releasedHigh⟩ ∧
      (frameBus [1, 2] []).phase = .idle ∧ 3 ≤ 255 ∧ (frameBus [1, 2] []).values.length < 3) := by decide

/-- X10, X1, X2, X3, one step each. -/
theorem test_frame_refusals :
    why (exec (.sendFrame 0) callInProgress) = some .frameWhileBusy ∧
    why (exec (.sendFrame 256) State.reset) = some (.countNotUint8 256) ∧
    why (exec (.sendFrame 3) (frameBus [1, 2] [])) = some (.countAboveValues 3 2) ∧
    why (step { State.reset with inbox := [.frame [1] (-1)] }) = some (.countNotUint8 (-1)) := by decide

theorem witness_NoOperationTouchesTheOutside : ∃ t, exec (.sample .sda) State.reset = .next t := ⟨_, rfl⟩

theorem witness_ConfigurationIsReadOnly : ∃ t, step { State.reset with inbox := [.reset] } = .next t := ⟨_, rfl⟩

theorem witness_TheTraceAccountsForEveryChange : ∃ t, exec .delayBitTime State.reset = .next t := ⟨_, rfl⟩

theorem witness_ClockIsNeverSampledAboveTheLineDriver :
    Instr.readAck.layer ≠ .lineDriver ∧ ∃ t, exec .readAck (startedBus []) = .next t := ⟨by decide, _, rfl⟩

theorem witness_PhaseKeepsMatchingTheLines :
    Instr.stop.layer ≠ .lineDriver ∧ phaseMatchesLines (startedBus []) = true ∧
    ∃ t, exec .stop (startedBus []) = .next t := ⟨by decide, by decide, _, rfl⟩

theorem witness_TransitionsStayOneTickApart :
    Instr.stop.layer ≠ .lineDriver ∧ Bookkeeping (startedBus []) ∧ Spaced (startedBus []) ∧
    ∃ t, exec .stop (startedBus []) = .next t := ⟨by decide, by decide, by decide, _, rfl⟩

/-- A machine whose configuration is written out, with one operation word pending. -/
def pendingStart : State := { State.reset with cfg := ⟨0, 1, 1⟩, inbox := [.operation 0x4000] }

theorem witness_EveryStepKeepsBookkeepingAndRest :
    Bookkeeping pendingStart ∧ AtRest pendingStart ∧ ∃ t, step pendingStart = .next t :=
  ⟨by decide, by decide, _, rfl⟩

/-- A machine with one frame pending. -/
def pendingFrame : State := { State.reset with envSda := [1], inbox := [.frame [1, 2] 2, .reset] }

theorem witness_HostDrivenMachineRestsOnAnIdleBus :
    HostDriven pendingFrame ∧ ∃ t, step pendingFrame = .next t := ⟨by decide, _, rfl⟩

theorem witness_StepRunsTheDecodedOperation :
    (pendingStart.inbox = [.operation 0x4000] ∧ decode 0x4000 = .ok .start) ∧
    decodeTableWord 16 0x90FF = some (.sendFrame 255) := by decide

/-- Words on both sides of each clause's boundary. -/
theorem witness_StepRefusesWordsThatNameNoOperation :
    (0xA ≤ ((0xA000 : Word).extractLsb' 12 4).toNat ∧ 0xA ≤ ((0xFFFF : Word).extractLsb' 12 4).toNat) ∧
    (((0x0002 : Word).extractLsb' 12 4).toNat < 0xA ∧ opRows.all (fun r => !r.selects 0x0002) = true) ∧
    (((0x9102 : Word).extractLsb' 12 4).toNat < 0xA ∧ opRows.all (fun r => !r.selects 0x9102) = true) := by decide

/-- A count at each boundary: 0, -1, 256. -/
theorem witness_StepServesAFrameRequest :
    (∃ vs n rest, pendingFrame.inbox = .frame vs n :: rest ∧ 0 ≤ n) ∧ (0 : Int) ≤ 0 ∧ (-1 : Int) < 0 ∧
    (255 : Int) < 256 ∧ busIdle pendingFrame = true ∧ pendingFrame.busy = 0 :=
  ⟨⟨_, _, _, rfl, by decide⟩, by decide, by decide, by decide, by decide, by decide⟩

theorem witness_StepServesReset :
    (∃ s : State, s.inbox = [.reset] ∧ s.busy = 0) ∧ ∃ s : State, s.inbox = [.reset] ∧ s.busy = 1 :=
  ⟨⟨{ State.reset with inbox := [.reset] }, rfl, rfl⟩, { callInProgress with inbox := [.reset] }, rfl, rfl⟩

theorem witness_StepWaitsWhenNothingIsOffered : State.reset.inbox = [] := by decide

theorem witness_DecodeInvertsEncode :
    (Instr.sendFrame 255).wellFormed = true ∧ (Instr.sendFrame 0).wellFormed = true ∧
    (Instr.writeByte 0xFF).wellFormed = true := by decide

theorem witness_NoFirstByteAsksForARead :
    (Instr.writeByte 0xFE).layer ≠ .lineDriver ∧ Bookkeeping (startedBus []) ∧
    asksForNoRead (startedBus []) = true ∧ ∃ t, exec (.writeByte 0xFE) (startedBus []) = .next t :=
  ⟨by decide, by decide, by decide, _, rfl⟩

theorem witness_EncodeInvertsDecode : decode 0x6001 = .ok (.writeBit 1) := by decide

theorem witness_WordsSelectRowsAsTheTableSays :
    decode 0x8010 = .ok (.writeByte 0x10) ∧ opRow (.writeByte 0x10) ∈ opRows := by decide

end Sys2Proof.Tests
end

section
/-!
PROOF of O29. `send_frame` and its engine program make the same engine calls, and an engine call neither reads nor writes
the registers of the Frame Transmitter: with those registers masked, both runs are one fold of `write_byte` between the
same `start` and the same `stop`. What is left is that `exec` never refuses a call of the program.
-/

namespace Sys2Proof.Machine

/-! ## Engine calls inside the table of R127 -/

theorem exec_start_of_idle {s : State} (hp : s.phase = .idle) (hd : s.drv = ⟨.releasedHigh, .releasedHigh⟩) :
    exec .start s = .next (startOp s) :=
  (guarded_eq_next_iff _ _ _).2 ⟨(startRefusal_eq_none_iff s).2 (.inl ⟨hp, hd⟩), rfl⟩

theorem exec_stop_of_open {s : State} (hp : s.phase = .started ∨ s.phase = .byteActive) (hd : s.drv.scl = .drivenLow) :
    exec .stop s = .next (stopOp s) :=
  (guarded_eq_next_iff _ _ _).2 ⟨(transactionRefusal_eq_none_iff .stop s).2 ⟨hp, hd⟩, rfl⟩

theorem exec_writeByte_of_open {b : Byte} {s : State} (hp : s.phase = .started ∨ s.phase = .byteActive)
    (hd : s.drv.scl = .drivenLow) (hr : askedRead (.writeByte b) s.trace = none) :
    exec (.writeByte b) s = .next (writeByteOp b s) := by
  refine (guarded_eq_next_iff _ _ _).2 ⟨Option.or_eq_none_iff.2 ⟨?_, ?_⟩, rfl⟩
  · exact (transactionRefusal_eq_none_iff _ s).2 ⟨hp, hd⟩
  · exact (readRequestRefusal_eq_none_iff _ s).2 hr

theorem exec_sendFrame_of_entry {n : Nat} {s : State} (h : FrameEntry n s) :
    exec (.sendFrame n) s = .next (sendFrameOp n s) := by
  obtain ⟨hbusy, hdrv, hphase, hport, hvalues⟩ := h
  refine (guarded_eq_next_iff _ _ _).2 ⟨(frameRefusal_eq_none_iff n s).2 ⟨?_, ?_, hport, hvalues⟩, rfl⟩
  · simp [hbusy]
  · exact (busIdle_eq_true_iff s).2 ⟨hdrv, hphase⟩

theorem runOperations_cons_of_next {i : Instr} {s t : State} (h : exec i s = .next t) (is : List Instr) :
    runOperations (i :: is) s = runOperations is t := by
  rw [runOperations, h]

/-! ## A run of `write_byte` calls -/

/-- `write_byte` for each of `bs`, with no check. -/
def writeBytesOp (bs : List Byte) (s : State) : State := bs.foldl (fun s b => writeByteOp b s) s

@[simp] theorem writeBytesOp_nil (s : State) : writeBytesOp [] s = s := rfl

@[simp] theorem writeBytesOp_cons (b : Byte) (bs : List Byte) (s : State) :
    writeBytesOp (b :: bs) s = writeBytesOp bs (writeByteOp b s) := rfl

theorem writeBytesOp_append (bs cs : List Byte) (s : State) :
    writeBytesOp (bs ++ cs) s = writeBytesOp cs (writeBytesOp bs s) := List.foldl_append

/-- Between two bytes, the first byte of the transaction being on the wire: from here R81 forbids no byte. The clock line
is low for the observer too, which reads the call trace only. -/
def FirstByteSent (s : State) : Prop :=
  BetweenBytes s ∧ (replay Drives.released s.trace).scl = .drivenLow ∧
    ∃ g, openBits s.trace = some g ∧ 8 ≤ g.length

theorem openBits_append_byteTrace {trace : List Event} (h : (replay Drives.released trace).scl = .drivenLow) (b : Byte)
    (a : Bit) : openBits (trace ++ byteTrace b a) = (openBits trace).map (· ++ (byteBits b ++ [1])) := by
  have hlines : replay Drives.released trace = ⟨.drivenLow, (replay Drives.released trace).sda⟩ := by rw [← h]
  rw [openBits_append, hlines, bitsSinceStart_byteTrace]

/-- A byte written in an open transaction leaves the first byte on the wire, whether it was the first one or not. -/
theorem firstByteSent_writeByteOp {s : State} {g : List Bit} (hclock : (replay Drives.released s.trace).scl = .drivenLow)
    (hopen : openBits s.trace = some g) (b : Byte) : FirstByteSent (writeByteOp b s) := by
  rw [writeByteOp_eq]
  refine ⟨⟨rfl, rfl⟩, ?_, g ++ (byteBits b ++ [1]), ?_, ?_⟩
  · simp [replay_append]
  · simp [openBits_append_byteTrace hclock, hopen]
  · simp [byteBits]

theorem FirstByteSent.after_writeByteOp {s : State} (h : FirstByteSent s) (b : Byte) : FirstByteSent (writeByteOp b s) := by
  obtain ⟨-, hclock, g, hopen, -⟩ := h
  exact firstByteSent_writeByteOp hclock hopen b

theorem FirstByteSent.exec_writeByte {s : State} (h : FirstByteSent s) (b : Byte) :
    exec (.writeByte b) s = .next (writeByteOp b s) := by
  obtain ⟨⟨hdrv, hphase⟩, -, hopen⟩ := h
  exact exec_writeByte_of_open (.inr hphase) (by rw [hdrv]) (askedRead_eq_none (.inr hopen) _)

theorem FirstByteSent.exec_stop {s : State} (h : FirstByteSent s) : exec .stop s = .next (stopOp s) := by
  obtain ⟨⟨hdrv, hphase⟩, -, -⟩ := h
  exact exec_stop_of_open (.inr hphase) (by rw [hdrv])

/-- Once the first byte is on the wire, a program that writes bytes and stops is never refused. -/
theorem FirstByteSent.runOperations_writeBytes_stop {s : State} (h : FirstByteSent s) (bs : List Byte) :
    runOperations (bs.map .writeByte ++ [.stop]) s = .next (stopOp (writeBytesOp bs s)) := by
  induction bs generalizing s with
  | nil => exact runOperations_cons_of_next h.exec_stop []
  | cons b bs ih => exact (runOperations_cons_of_next (h.exec_writeByte b) _).trans (ih (h.after_writeByteOp b))

/-! ## The engine program of a frame -/

/-- `start` and the address byte, with no check and none of the frame's own bookkeeping. -/
def openEngine (s : State) : State := writeByteOp addrByte (startOp s)

theorem openBits_startOp (s : State) : openBits (startOp s).trace = some [] := by
  simp [startOp_eq]

theorem firstByteSent_openEngine (s : State) : FirstByteSent (openEngine s) := by
  refine firstByteSent_writeByteOp ?_ (openBits_startOp s) addrByte
  simp [startOp_eq, replay_append, startTrace, applyEvent]

/-- The address byte asks for a write, so `exec` performs it right after `start`. -/
theorem exec_addrByte_startOp (s : State) : exec (.writeByte addrByte) (startOp s) = .next (openEngine s) := by
  refine exec_writeByte_of_open ?_ ?_ ?_
  · simp [startOp_eq]
  · simp [startOp_eq]
  · rw [askedRead_writeByte_of_nil (openBits_startOp s), if_neg (by decide)]

/-- The bytes a frame sends after the address byte: none when it was aborted (R150, R176). -/
def payloadBytes (result : Bit) (values : List Value) : List Byte :=
  if result = 1 then [] else values.flatMap valueBytes

@[simp] theorem payloadBytes_one (values : List Value) : payloadBytes 1 values = [] := rfl

@[simp] theorem payloadBytes_zero (values : List Value) : payloadBytes 0 values = values.flatMap valueBytes := rfl

theorem frameProgram_eq (result : Bit) (values : List Value) :
    frameProgram result values =
      .start :: .writeByte addrByte :: ((payloadBytes result values).map .writeByte ++ [.stop]) := by
  have haddr : addrByte = 0x10 := by decide
  unfold frameProgram payloadBytes
  split_ifs <;> simp [haddr]

theorem runOperations_frameProgram {s : State} (hp : s.phase = .idle) (hd : s.drv = ⟨.releasedHigh, .releasedHigh⟩)
    (result : Bit) (values : List Value) :
    runOperations (frameProgram result values) s =
      .next (stopOp (writeBytesOp (payloadBytes result values) (openEngine s))) := by
  rw [frameProgram_eq, runOperations_cons_of_next (exec_start_of_idle hp hd),
    runOperations_cons_of_next (exec_addrByte_startOp s), (firstByteSent_openEngine s).runOperations_writeBytes_stop]

/-! ## What the engine sees of a state -/

/-- The state with the Frame Transmitter's own registers masked: what the layers below it can tell of it. -/
def engineView (s : State) : State :=
  { s with byteK := 0, valI := 0, val := 0, count := 0, result := 0, busy := 0 }

theorem engineView_startOp (s : State) : engineView (startOp s) = startOp (engineView s) := by
  simp only [startOp_eq, engineView]

theorem engineView_stopOp (s : State) : engineView (stopOp s) = stopOp (engineView s) := by
  simp only [stopOp_eq, engineView]

theorem engineView_writeByteOp (b : Byte) (s : State) :
    engineView (writeByteOp b s) = writeByteOp b (engineView s) := by
  simp only [writeByteOp_eq, engineView, byteAnswer]

theorem engineView_writeBytesOp (bs : List Byte) (s : State) :
    engineView (writeBytesOp bs s) = writeBytesOp bs (engineView s) := by
  induction bs generalizing s with
  | nil => rfl
  | cons b bs ih => rw [writeBytesOp_cons, ih, engineView_writeByteOp, writeBytesOp_cons]

theorem engineView_loadValue (i : Nat) (v : Value) (s : State) : engineView (loadValue i v s) = engineView s := rfl

theorem engineView_sendValueByte (s : State) (k : Nat) :
    engineView (sendValueByte s k) = writeByteOp (valueByte s.val k) (engineView s) :=
  engineView_writeByteOp _ _

@[simp] theorem sendValueByte_val (s : State) (k : Nat) : (sendValueByte s k).val = s.val := by
  rw [sendValueByte_eq]

/-- The byte loop of one value is four calls of `write_byte`. -/
theorem engineView_sendValue (s : State) :
    engineView (sendValue s) = writeBytesOp (valueBytes s.val) (engineView s) := by
  simp [sendValue, valueBytes, engineView_sendValueByte]

/-- The value loop is the calls of `write_byte` for all bytes of the values. -/
theorem engineView_sendValues (i : Nat) (vs : List Value) (s : State) :
    engineView (sendValues i vs s) = writeBytesOp (vs.flatMap valueBytes) (engineView s) := by
  induction vs generalizing i s with
  | nil => rfl
  | cons v vs ih =>
    rw [sendValues, ih, engineView_sendValue, engineView_loadValue, loadValue_val, List.flatMap_cons,
      writeBytesOp_append]

theorem engineView_openFrame (n : Nat) (s : State) : engineView (openFrame n s) = engineView (openEngine s) := by
  simp only [openFrame, openEngine, engineView_writeByteOp, engineView_startOp]
  rfl

theorem engineView_abortFrame (s : State) : engineView (abortFrame s) = stopOp (engineView s) :=
  engineView_stopOp s

theorem engineView_closeFrame (s : State) : engineView (closeFrame s) = stopOp (engineView s) :=
  engineView_stopOp s

/-- To the engine a frame is `start`, the address byte, the payload its result allows, and `stop`. -/
theorem engineView_sendFrameOp (n : Nat) (s : State) :
    engineView (sendFrameOp n s) =
      engineView (stopOp (writeBytesOp (payloadBytes (sendFrameOp n s).result (s.values.take n)) (openEngine s))) := by
  have hvalues : (openFrame n s).values = s.values := by rw [openFrame_eq, writeByteOp_eq]
  rw [engineView_stopOp, engineView_writeBytesOp, ← engineView_openFrame n]
  by_cases hack : (openFrame n s).ack = 0
  case pos =>
    have habort : sendFrameOp n s = abortFrame (openFrame n s) := if_pos hack
    have hresult : (sendFrameOp n s).result = 1 := by rw [habort, abortFrame_eq]
    rw [hresult, habort, engineView_abortFrame, payloadBytes_one, writeBytesOp_nil]
  case neg =>
    have hclose : sendFrameOp n s = closeFrame (sendValues 0 (s.values.take n) (openFrame n s)) :=
      (if_neg hack).trans (by rw [hvalues])
    have hresult : (sendFrameOp n s).result = 0 := by rw [hclose, closeFrame_eq]
    rw [hresult, hclose, engineView_closeFrame, engineView_sendValues, payloadBytes_zero]

/-- The fields that `engineView` does not mask are those the two views agree on. -/
theorem fields_eq_of_engineView_eq {t c : State} (h : engineView t = engineView c) :
    t.trace = c.trace ∧ t.drv = c.drv ∧ t.phase = c.phase ∧ t.ticks = c.ticks ∧ t.ack = c.ack ∧ t.bitI = c.bitI ∧
      t.byteReg = c.byteReg ∧ t.envSda = c.envSda := by
  simp only [engineView, State.mk.injEq] at h
  simp only [h, and_self]

/-- Settles O29: both runs complete, in states that differ at most in what `engineView` masks. -/
theorem sendFrameRefinesItsEngineProgram : Obligations.SendFrameRefinesItsEngineProgram := by
  intro n s hentry
  have hframe := exec_sendFrame_of_entry hentry
  obtain ⟨-, hdrv, hphase, -, -⟩ := hentry
  have hprogram := runOperations_frameProgram hphase hdrv (sendFrameOp n s).result (s.values.take n)
  exact ⟨_, _, hframe, hprogram, fields_eq_of_engineView_eq (engineView_sendFrameOp n s)⟩

end Sys2Proof.Machine
end

section
/-!
PROOFS of O5, O31, O32, O33, O35, O37 and O39. Said once of an operation that completes: it leaves the outside alone and
the events it appends account for the lines and the ticks (`exec_accounted`), it ends at rest (`exec_atRest`), and above
the Line Driver its phase then agrees with the lines (`exec_phaseMatchesLines`). The first composes along a sequence of
operations, so a frame inherits it from the engine calls it makes.
-/

namespace Sys2Proof.Machine

/-! ## The trace accounts for what changed -/

/-- From `s` to `t` nothing outside the block changed (R29, R162), and the events appended to the call trace account for
the lines and the ticks (R20, R31). -/
def Accounted (s t : State) : Prop :=
  SameOutside s t ∧ ∃ w, t.trace = s.trace ++ w ∧ t.drv = replay s.drv w ∧ t.ticks = s.ticks + delayCount w

theorem Accounted.trans {s t u : State} (h : Accounted s t) (k : Accounted t u) : Accounted s u := by
  obtain ⟨⟨hcfg, hval, hres, hin⟩, w, htrace, hdrv, hticks⟩ := h
  obtain ⟨⟨kcfg, kval, kres, kin⟩, v, ktrace, kdrv, kticks⟩ := k
  refine ⟨⟨kcfg.trans hcfg, fun i => (kval i).trans (hval i), kres.trans hres, kin.trans hin⟩, w ++ v, ?_, ?_, ?_⟩
  · rw [ktrace, htrace, List.append_assoc]
  · rw [kdrv, hdrv, replay_append]
  · rw [kticks, hticks, delayCount_append, Nat.add_assoc]

theorem Accounted.bookkeeping {s t : State} (h : Accounted s t) (hs : Bookkeeping s) : Bookkeeping t := by
  obtain ⟨-, w, htrace, hdrv, hticks⟩ := h
  obtain ⟨sdrv, sticks⟩ := hs
  constructor
  · rw [hdrv, htrace, replay_append, sdrv]
  · rw [hticks, htrace, delayCount_append, sticks]

theorem accounted_driveLow (l : Line) (s : State) : Accounted s (driveLow l s) :=
  ⟨⟨rfl, fun _ => rfl, rfl, rfl⟩, [.driveLow l], rfl, rfl, rfl⟩

theorem accounted_releaseHigh (l : Line) (s : State) : Accounted s (releaseHigh l s) :=
  ⟨⟨rfl, fun _ => rfl, rfl, rfl⟩, [.releaseHigh l], rfl, rfl, rfl⟩

theorem accounted_sampleLine (l : Line) (s : State) : Accounted s (sampleLine l s) := by
  cases l
  case scl => exact ⟨⟨rfl, fun _ => rfl, rfl, rfl⟩, _, rfl, rfl, rfl⟩
  case sda => exact ⟨⟨rfl, fun _ => rfl, rfl, rfl⟩, _, rfl, rfl, rfl⟩

theorem accounted_delayBitTime (s : State) : Accounted s (delayBitTime s) :=
  ⟨⟨rfl, fun _ => rfl, rfl, rfl⟩, [.delay], rfl, rfl, rfl⟩

theorem accounted_startOp (s : State) : Accounted s (startOp s) := by
  rw [startOp_eq]
  exact ⟨⟨rfl, fun _ => rfl, rfl, rfl⟩, startTrace, rfl, rfl, rfl⟩

theorem accounted_stopOp (s : State) : Accounted s (stopOp s) := by
  rw [stopOp_eq]
  exact ⟨⟨rfl, fun _ => rfl, rfl, rfl⟩, stopTrace, rfl, rfl, rfl⟩

theorem accounted_writeBitOp (b : Bit) (s : State) : Accounted s (writeBitOp b s) := by
  rw [writeBitOp_eq]
  exact ⟨⟨rfl, fun _ => rfl, rfl, rfl⟩, bitCell b, rfl, by simp, by simp⟩

theorem accounted_readAckOp (s : State) : Accounted s (readAckOp s) := by
  rw [readAckOp_eq]
  exact ⟨⟨rfl, fun _ => rfl, rfl, rfl⟩, ackCell (ackAnswer s), rfl, rfl, rfl⟩

theorem accounted_writeByteOp (b : Byte) (s : State) : Accounted s (writeByteOp b s) := by
  rw [writeByteOp_eq]
  exact ⟨⟨rfl, fun _ => rfl, rfl, rfl⟩, byteTrace b (byteAnswer b s), rfl, by simp, by simp⟩

theorem accounted_openFrame (n : Nat) (s : State) : Accounted s (openFrame n s) :=
  (accounted_startOp { s with busy := 1, count := BitVec.ofNat 8 n }).trans (accounted_writeByteOp addrByte _)

theorem betweenBytes_openFrame (n : Nat) (s : State) : BetweenBytes (openFrame n s) := by
  rw [openFrame_eq, writeByteOp_eq]
  exact ⟨rfl, rfl⟩

/-- The value loop, entered between two bytes as `send_frame` enters it. -/
theorem accounted_sendValues {s : State} (h : BetweenBytes s) (i : Nat) (vs : List Value) :
    Accounted s (sendValues i vs s) := by
  obtain ⟨acks, hlen, htrace, hticks, -, ⟨hcfg, hval, hres, hin, -⟩, hbetween⟩ := sendValues_spec i vs s
  have hbytes : (vs.flatMap valueBytes).length = acks.length := by simp [hlen, valueBytes, Nat.mul_comm]
  refine ⟨⟨hcfg, fun j => by rw [memRead, memRead, hval], hres, hin⟩, _, htrace, ?_, ?_⟩
  · rw [(hbetween h).1, h.1, replay_bytesTrace]
  · rw [hticks, delayCount_bytesTrace _ _ hbytes, hbytes, hlen]
    omega

theorem accounted_abortFrame (s : State) : Accounted s (abortFrame s) := accounted_stopOp s

theorem accounted_closeFrame (s : State) : Accounted s (closeFrame s) := accounted_stopOp s

theorem accounted_sendFrameOp (n : Nat) (s : State) : Accounted s (sendFrameOp n s) := by
  refine (accounted_openFrame n s).trans ?_
  rw [sendFrameOp]
  split_ifs
  · exact accounted_abortFrame _
  · exact (accounted_sendValues (betweenBytes_openFrame n s) _ _).trans (accounted_closeFrame _)

/-- An operation that completes is accounted for, whichever it is. -/
theorem exec_accounted {i : Instr} {s t : State} (h : exec i s = .next t) : Accounted s t := by
  obtain ⟨l, -, rfl⟩ | ⟨l, -, rfl⟩ | ⟨l, -, rfl⟩ | ⟨-, rfl⟩ | ⟨-, -, rfl⟩ | ⟨-, -, rfl⟩ | ⟨b, -, -, -, rfl⟩ |
    ⟨-, -, -, rfl⟩ | ⟨b, -, -, -, rfl⟩ | ⟨n, -, -, rfl⟩ := exec_eq_next h
  · exact accounted_driveLow l s
  · exact accounted_releaseHigh l s
  · exact accounted_sampleLine l s
  · exact accounted_delayBitTime s
  · exact accounted_startOp s
  · exact accounted_stopOp s
  · exact accounted_writeBitOp b s
  · exact accounted_readAckOp s
  · exact accounted_writeByteOp b s
  · exact accounted_sendFrameOp n s

/-! ## Phase, lines and `BUSY` at the end of an operation -/

/-- Aborted or not, a frame ends on an idle bus with no call in progress. -/
theorem sendFrameOp_ends_idle (n : Nat) (s : State) :
    (sendFrameOp n s).drv = Drives.released ∧ (sendFrameOp n s).phase = .idle ∧ (sendFrameOp n s).busy = 0 := by
  rw [sendFrameOp]
  split_ifs
  · simp [abortFrame_eq]
  · simp [closeFrame_eq]

/-- An operation leaves the phase where it found it or at a phase of an operation boundary (R24, R127); only a frame
writes `BUSY`, and it ends with `BUSY` 0 (R28). -/
theorem exec_phase_busy {i : Instr} {s t : State} (h : exec i s = .next t) (hphase : s.phase ≠ .stopped)
    (hbusy : s.busy = 0) : t.phase ≠ .stopped ∧ t.busy = 0 := by
  obtain ⟨l, -, rfl⟩ | ⟨l, -, rfl⟩ | ⟨l, -, rfl⟩ | ⟨-, rfl⟩ | ⟨-, -, rfl⟩ | ⟨-, -, rfl⟩ | ⟨b, -, -, -, rfl⟩ |
    ⟨-, -, -, rfl⟩ | ⟨b, -, -, -, rfl⟩ | ⟨n, -, -, rfl⟩ := exec_eq_next h
  · exact ⟨hphase, hbusy⟩
  · exact ⟨hphase, hbusy⟩
  · simp [sampleLine, hphase, hbusy]
  · exact ⟨hphase, hbusy⟩
  · simp [startOp_eq, hbusy]
  · simp [stopOp_eq, hbusy]
  · simp [writeBitOp_eq, hphase, hbusy]
  · simp [readAckOp_eq, hphase, hbusy]
  · simp [writeByteOp_eq, hbusy]
  · simp [sendFrameOp_ends_idle]

theorem exec_atRest {i : Instr} {s t : State} (h : exec i s = .next t) (hs : AtRest s) : AtRest t := by
  obtain ⟨hphase, hbusy, hcfg⟩ := hs
  obtain ⟨⟨kcfg, -⟩, -⟩ := exec_accounted h
  obtain ⟨kphase, kbusy⟩ := exec_phase_busy h hphase hbusy
  exact ⟨kphase, kbusy, by rw [kcfg, hcfg]⟩

theorem phaseMatchesLines_of_idle {s : State} (hp : s.phase = .idle) (hd : s.drv = Drives.released) :
    phaseMatchesLines s = true := by
  simp [phaseMatchesLines, hp, hd]

/-- In a transaction, agreement is the clock line low. -/
theorem phaseMatchesLines_of_open {s : State} (hp : s.phase = .started ∨ s.phase = .byteActive)
    (hd : s.drv.scl = .drivenLow) : phaseMatchesLines s = true := by
  rcases hp with hp | hp <;> simp [phaseMatchesLines, hp, hd]

/-- The checks of R127 already put an operation of layers 2 and 3 where it leaves phase and lines in agreement. -/
theorem exec_phaseMatchesLines {i : Instr} {s t : State} (hl : i.layer ≠ .lineDriver) (h : exec i s = .next t) :
    phaseMatchesLines t = true := by
  obtain ⟨l, rfl, -⟩ | ⟨l, rfl, -⟩ | ⟨l, rfl, -⟩ | ⟨rfl, -⟩ | ⟨-, -, rfl⟩ | ⟨-, -, rfl⟩ | ⟨b, -, hr, -, rfl⟩ |
    ⟨-, hr, -, rfl⟩ | ⟨b, -, -, -, rfl⟩ | ⟨n, -, -, rfl⟩ := exec_eq_next h
  · exact absurd rfl hl
  · exact absurd rfl hl
  · exact absurd rfl hl
  · exact absurd rfl hl
  · exact phaseMatchesLines_of_open (.inl (by rw [startOp_eq])) (by rw [startOp_eq])
  · exact phaseMatchesLines_of_idle (by rw [stopOp_eq]) (by rw [stopOp_eq])
  · obtain ⟨hphase, -⟩ := (transactionRefusal_eq_none_iff i s).1 hr
    exact phaseMatchesLines_of_open (by rwa [writeBitOp_eq]) (by rw [writeBitOp_eq])
  · obtain ⟨hphase, -⟩ := (transactionRefusal_eq_none_iff i s).1 hr
    exact phaseMatchesLines_of_open (by rwa [readAckOp_eq]) (by rw [readAckOp_eq])
  · exact phaseMatchesLines_of_open (.inr (by rw [writeByteOp_eq])) (by rw [writeByteOp_eq])
  · obtain ⟨hdrv, hphase, -⟩ := sendFrameOp_ends_idle n s
    exact phaseMatchesLines_of_idle hphase hdrv

/-! ## Reset -/

theorem configLines_ids_ne : Config.lines.sclId ≠ Config.lines.sdaId := by
  simp only [Config.lines]
  split_ifs <;> omega

theorem configLines_tBit_pos : 0 < Config.lines.tBit := Nat.succ_pos _

theorem configLines_ok : Config.lines.ok = true := by
  simp [LineConfig.ok, configLines_ids_ne, configLines_tBit_pos]

theorem bookkeeping_resetAction (s : State) : Bookkeeping (resetAction s) := ⟨rfl, rfl⟩

theorem atRest_resetAction {s : State} (h : s.cfg.ok = true) : AtRest (resetAction s) := ⟨by simp, rfl, h⟩

/-! ## The obligations -/

/-- Settles O37: a step waits, resets, or is an operation, which is accounted for and ends at rest. -/
theorem everyStepKeepsBookkeepingAndRest : Obligations.EveryStepKeepsBookkeepingAndRest := by
  intro s t hb hr h
  obtain ⟨-, rfl⟩ | ⟨_, rest, i, -, -, hexec⟩ | ⟨vs, n, rest, -, -, hexec⟩ | ⟨rest, -, -, rfl⟩ := step_eq_next h
  · exact ⟨hb, hr⟩
  · exact ⟨(exec_accounted hexec).bookkeeping hb, exec_atRest hexec hr⟩
  · exact ⟨(exec_accounted hexec).bookkeeping hb, exec_atRest hexec hr⟩
  · obtain ⟨-, -, hcfg⟩ := hr
    exact ⟨bookkeeping_resetAction _, atRest_resetAction hcfg⟩

/-- Settles O31: the outside half of `Accounted`. -/
theorem noOperationTouchesTheOutside : Obligations.NoOperationTouchesTheOutside :=
  fun _ _ _ h => (exec_accounted h).1

/-- Settles O32: no operation changes the configuration, nor do waiting and reset. -/
theorem configurationIsReadOnly : Obligations.ConfigurationIsReadOnly := by
  intro s t h
  obtain ⟨-, rfl⟩ | ⟨_, rest, i, -, -, hexec⟩ | ⟨vs, n, rest, -, -, hexec⟩ | ⟨rest, -, -, rfl⟩ := step_eq_next h
  · rfl
  · exact (noOperationTouchesTheOutside _ _ _ hexec).1
  · exact (noOperationTouchesTheOutside _ _ _ hexec).1
  · rfl

/-- Settles O33: the trace half of `Accounted`. -/
theorem theTraceAccountsForEveryChange : Obligations.TheTraceAccountsForEveryChange :=
  fun _ _ _ h => (exec_accounted h).2

/-- Settles O35, whose premise on `s` the checks of R127 make redundant. -/
theorem phaseKeepsMatchingTheLines : Obligations.PhaseKeepsMatchingTheLines :=
  fun _ _ _ hl _ h => exec_phaseMatchesLines hl h

/-- Settles O5, by the value of the drive state in each case. -/
theorem levelIsTheWiredAnd : Obligations.LevelIsTheWiredAnd := by
  intro s
  refine ⟨fun _ => rfl, fun l hlow => ?_, fun l hhigh => ?_, ?_⟩
  · rw [level, hlow, drivenLow_bit_and]
  · rw [level, hhigh, released_bit_and]
  · exact bit_and_one s.drv.scl.bit

/-- Settles O39: the reset state has no history, so only the configuration needs an argument. -/
theorem resetStateIsIdleAndMeetsTheInvariants : Obligations.ResetStateIsIdleAndMeetsTheInvariants := by
  have hbook : Bookkeeping State.reset := ⟨rfl, rfl⟩
  have hrest : AtRest State.reset := ⟨by decide, rfl, configLines_ok⟩
  have hspaced : Spaced State.reset := ⟨rfl, by decide⟩
  have hhost : HostDriven State.reset := ⟨rfl, rfl, rfl, hbook, hspaced⟩
  exact ⟨rfl, rfl, rfl, rfl, rfl, configLines_ids_ne, configLines_tBit_pos, hbook, hrest, rfl, hhost, rfl⟩

end Sys2Proof.Machine
end

section
/-!
PROOF of O36. A call trace keeps pace when its transitions are at least one tick apart and a delay follows the last one.
Traces that keep pace append, and one tick with at most one transition before its delay keeps pace; every engine
operation is a list of such ticks. So every engine operation keeps `OnPace`, a program of them does, and a frame does
because it makes the call trace of its engine program (O29).
-/

namespace Sys2Proof.Machine

/-! ## Call traces that keep pace -/

/-- The transitions are separated exactly when their ticks increase strictly. -/
theorem separated_iff_pairwise (ts : List Transition) :
    separated ts = true ↔ (ts.map Transition.tick).Pairwise (· < ·) := by
  rw [← List.isChain_iff_pairwise]
  induction ts with
  | nil => simp [separated]
  | cons a ts ih =>
    cases ts with
    | nil => simp [separated]
    | cons b ts => simpa [separated, Nat.succ_le_iff] using fun _ => ih

theorem tick_eq_of_mem_lineChange {d : Drives} {n : Nat} {l : Line} {v : Drive} {x : Transition}
    (hx : x ∈ lineChange d n l v) : x.tick = n := by
  unfold lineChange at hx
  split_ifs at hx <;> simp_all

/-- A call trace makes its transitions between the tick it begins at and the tick it ends at. -/
theorem tick_bounds_transitionsFrom {d : Drives} {n : Nat} {w : List Event} {x : Transition}
    (hx : x ∈ transitionsFrom d n w) : n ≤ x.tick ∧ x.tick ≤ n + delayCount w := by
  induction w generalizing d n with
  | nil => simp [transitionsFrom] at hx
  | cons e w ih =>
    have hmove : ∀ l v d', x ∈ lineChange d n l v ++ transitionsFrom d' n w →
        n ≤ x.tick ∧ x.tick ≤ n + delayCount w := by
      intro l v d' h
      rcases List.mem_append.1 h with h | h
      · have := tick_eq_of_mem_lineChange h
        omega
      · exact ih h
    cases e with
    | delay =>
      obtain ⟨hlo, hhi⟩ := ih hx
      simp only [delayCount]
      omega
    | sample l b => exact ih hx
    | driveLow l => exact hmove _ _ _ hx
    | releaseHigh l => exact hmove _ _ _ hx

/-- From drive states `d` and tick `n` the call trace `w` makes transitions at least one tick apart, and a delay follows
the last of them (R59). -/
def KeepsPace (d : Drives) (n : Nat) (w : List Event) : Prop :=
  separated (transitionsFrom d n w) = true ∧ ∀ x ∈ transitionsFrom d n w, x.tick < n + delayCount w

theorem keepsPace_nil (d : Drives) (n : Nat) : KeepsPace d n [] := ⟨rfl, by simp [transitionsFrom]⟩

theorem KeepsPace.append {d : Drives} {n : Nat} {u w : List Event} (hu : KeepsPace d n u)
    (hw : KeepsPace (replay d u) (n + delayCount u) w) : KeepsPace d n (u ++ w) := by
  obtain ⟨hsepU, hlastU⟩ := hu
  obtain ⟨hsepW, hlastW⟩ := hw
  have hfirstW : ∀ y ∈ transitionsFrom (replay d u) (n + delayCount u) w, n + delayCount u ≤ y.tick :=
    fun y hy => (tick_bounds_transitionsFrom hy).1
  rw [KeepsPace, transitionsFrom_append, delayCount_append]
  constructor
  · rw [separated_iff_pairwise] at hsepU hsepW ⊢
    rw [List.map_append, List.pairwise_append]
    refine ⟨hsepU, hsepW, ?_⟩
    simp only [List.mem_map]
    rintro _ ⟨x, hx, rfl⟩ _ ⟨y, hy, rfl⟩
    exact (hlastU x hx).trans_le (hfirstW y hy)
  · intro x hx
    rcases List.mem_append.1 hx with hx | hx
    · have := hlastU x hx
      omega
    · have := hlastW x hx
      omega

/-- One tick: primitives that make at most one transition, then a delay. -/
theorem keepsPace_tick {d : Drives} {n : Nat} {u : List Event} (h : (transitionsFrom d n u).length ≤ 1) :
    KeepsPace d n (u ++ [.delay]) := by
  have hsame : transitionsFrom d n (u ++ [.delay]) = transitionsFrom d n u := by
    simp [transitionsFrom_append, transitionsFrom]
  rw [KeepsPace, hsame, delayCount_append]
  constructor
  · match transitionsFrom d n u, h with
    | [], _ => rfl
    | [_], _ => rfl
  · intro x hx
    exact Nat.lt_succ_of_le (tick_bounds_transitionsFrom hx).2

theorem length_lineChange_le_one (d : Drives) (n : Nat) (l : Line) (v : Drive) : (lineChange d n l v).length ≤ 1 := by
  unfold lineChange
  split_ifs <;> simp

/-- A primitive makes at most one transition (R106). -/
theorem length_transitionsFrom_single_le_one (d : Drives) (n : Nat) (e : Event) :
    (transitionsFrom d n [e]).length ≤ 1 := by
  cases e with
  | delay => simp [transitionsFrom]
  | sample l b => simp [transitionsFrom]
  | driveLow l => simpa [transitionsFrom] using length_lineChange_le_one d n l .drivenLow
  | releaseHigh l => simpa [transitionsFrom] using length_lineChange_le_one d n l .releasedHigh

/-- A tick of one primitive keeps pace from any drive states. -/
theorem KeepsPace.primitive_delay {d : Drives} {n : Nat} {e : Event} {w : List Event}
    (hw : KeepsPace (replay d [e, .delay]) (n + delayCount [e, .delay]) w) : KeepsPace d n (e :: .delay :: w) :=
  (keepsPace_tick (length_transitionsFrom_single_le_one d n e)).append hw

/-! ## The operations of the engine keep pace -/

theorem keepsPace_bitCell (d : Drives) (n : Nat) (b : Bit) : KeepsPace d n (bitCell b) :=
  .primitive_delay (.primitive_delay (.primitive_delay (keepsPace_nil _ _)))

theorem keepsPace_stopTrace (d : Drives) (n : Nat) : KeepsPace d n stopTrace :=
  .primitive_delay (.primitive_delay (.primitive_delay (keepsPace_nil _ _)))

/-- The two releases that begin `start` stand in one tick, so the first must find the data line released (R127). -/
theorem keepsPace_startTrace {d : Drives} (h : d.sda = .releasedHigh) (n : Nat) : KeepsPace d n startTrace := by
  have hreleases : KeepsPace d n ([.releaseHigh .sda, .releaseHigh .scl] ++ [.delay]) := by
    apply keepsPace_tick
    have hclock : transitionsFrom d n [.releaseHigh .sda, .releaseHigh .scl] =
        transitionsFrom (d.set .sda .releasedHigh) n [.releaseHigh .scl] := by
      simp [transitionsFrom, lineChange, h]
    rw [hclock]
    exact length_transitionsFrom_single_le_one _ n _
  exact hreleases.append (.primitive_delay (.primitive_delay (keepsPace_nil _ _)))

theorem keepsPace_ackCell (d : Drives) (n : Nat) (a : Bit) : KeepsPace d n (ackCell a) := by
  have hsample : ∀ d n, KeepsPace d n ([.releaseHigh .scl, .sample .sda a] ++ [.delay]) :=
    fun d n => keepsPace_tick (length_transitionsFrom_single_le_one d n (.releaseHigh .scl))
  exact .primitive_delay ((hsample _ _).append (.primitive_delay (keepsPace_nil _ _)))

theorem keepsPace_flatMap_bitCell (d : Drives) (n : Nat) (bs : List Bit) : KeepsPace d n (bs.flatMap bitCell) := by
  induction bs generalizing d n with
  | nil => exact keepsPace_nil d n
  | cons b bs ih => exact (keepsPace_bitCell d n b).append (ih _ _)

theorem keepsPace_byteTrace (d : Drives) (n : Nat) (b : Byte) (a : Bit) : KeepsPace d n (byteTrace b a) :=
  (keepsPace_flatMap_bitCell d n _).append (keepsPace_ackCell _ _ a)

/-- The check of `start` passes only with the data line released. -/
theorem sda_released_of_startRefusal {s : State} (h : startRefusal s = none) : s.drv.sda = .releasedHigh := by
  rcases (startRefusal_eq_none_iff s).1 h with ⟨-, hdrv⟩ | ⟨-, hdrv, -⟩ <;> rw [hdrv]

/-- An engine operation that completes appends primitives that keep pace from where it was entered. -/
theorem exec_engine_keepsPace {i : Instr} {s t : State} (hl : i.layer = .protocolEngine) (h : exec i s = .next t) :
    ∃ w, t.trace = s.trace ++ w ∧ ∀ n, KeepsPace s.drv n w := by
  obtain ⟨l, rfl, -⟩ | ⟨l, rfl, -⟩ | ⟨l, rfl, -⟩ | ⟨rfl, -⟩ | ⟨-, hr, rfl⟩ | ⟨-, -, rfl⟩ | ⟨b, -, -, -, rfl⟩ |
    ⟨-, -, -, rfl⟩ | ⟨b, -, -, -, rfl⟩ | ⟨n, rfl, -⟩ := exec_eq_next h
  · cases hl
  · cases hl
  · cases hl
  · cases hl
  · exact ⟨startTrace, by rw [startOp_eq], keepsPace_startTrace (sda_released_of_startRefusal hr)⟩
  · exact ⟨stopTrace, by rw [stopOp_eq], keepsPace_stopTrace _⟩
  · exact ⟨bitCell b, by rw [writeBitOp_eq], fun n => keepsPace_bitCell _ n b⟩
  · exact ⟨_, by rw [readAckOp_eq], fun n => keepsPace_ackCell _ n _⟩
  · exact ⟨_, by rw [writeByteOp_eq], fun n => keepsPace_byteTrace _ n b _⟩
  · cases hl

/-! ## States on pace -/

/-- The bookkeeping is complete and the transitions since reset keep their distance (R31, R59). -/
def OnPace (s : State) : Prop := Bookkeeping s ∧ Spaced s

/-- On pace is said of the call trace: the lines and the ticks are those it leads to. -/
theorem onPace_iff_keepsPace (s : State) : OnPace s ↔ Bookkeeping s ∧ KeepsPace Drives.released 0 s.trace := by
  refine and_congr_right fun hb => ?_
  rw [Spaced, KeepsPace, transitions, hb.2, Nat.zero_add]

/-- What is accounted for by a call trace that keeps pace leaves the block on pace. -/
theorem OnPace.of_keepsPace {s t : State} {w : List Event} (hs : OnPace s) (hacc : Accounted s t)
    (htrace : t.trace = s.trace ++ w) (hw : KeepsPace s.drv s.ticks w) : OnPace t := by
  obtain ⟨hbook, hpace⟩ := (onPace_iff_keepsPace s).1 hs
  refine (onPace_iff_keepsPace t).2 ⟨hacc.bookkeeping hbook, ?_⟩
  obtain ⟨hdrv, hticks⟩ := hbook
  rw [hdrv, hticks, ← Nat.zero_add (delayCount _)] at hw
  rw [htrace]
  exact hpace.append hw

theorem OnPace.exec_engine {i : Instr} {s t : State} (hs : OnPace s) (hl : i.layer = .protocolEngine)
    (h : exec i s = .next t) : OnPace t := by
  obtain ⟨w, htrace, hw⟩ := exec_engine_keepsPace hl h
  exact hs.of_keepsPace (exec_accounted h) htrace (hw _)

/-- A program of engine operations that runs to its end leaves the block on pace. -/
theorem OnPace.runOperations {is : List Instr} {s t : State} (hs : OnPace s)
    (hl : ∀ i ∈ is, i.layer = .protocolEngine) (h : runOperations is s = .next t) : OnPace t := by
  induction is generalizing s with
  | nil =>
    cases h
    exact hs
  | cons i is ih =>
    obtain ⟨hi, his⟩ := List.forall_mem_cons.1 hl
    unfold Machine.runOperations at h
    split at h
    case h_1 u hu => exact ih (hs.exec_engine hi hu) his h
    all_goals cases h

/-! ## Frames -/

theorem layer_of_mem_frameProgram {result : Bit} {values : List Value} {i : Instr} (h : i ∈ frameProgram result values) :
    i.layer = .protocolEngine := by
  rw [frameProgram_eq] at h
  simp only [List.mem_cons, List.mem_append, List.mem_map, List.not_mem_nil, or_false] at h
  obtain rfl | rfl | ⟨b, -, rfl⟩ | rfl := h <;> rfl

/-- The check of `send_frame` passes only in its entry conditions. -/
theorem frameEntry_of_frameRefusal {n : Nat} {s : State} (h : frameRefusal n s = none) : FrameEntry n s := by
  obtain ⟨hbusy, hidle, hport, hvalues⟩ := (frameRefusal_eq_none_iff n s).1 h
  obtain ⟨hdrv, hphase⟩ := (busIdle_eq_true_iff s).1 hidle
  exact ⟨(bit_eq_zero_or_one s.busy).resolve_right hbusy, hdrv, hphase, hport, hvalues⟩

/-- A frame makes the call trace of its engine program, in the same lines and ticks. -/
theorem OnPace.sendFrame {n : Nat} {s t : State} (hs : OnPace s) (h : exec (.sendFrame n) s = .next t) : OnPace t := by
  have hcheck : frameRefusal n s = none := ((guarded_eq_next_iff _ _ _).1 h).1
  obtain ⟨t', c, ht', hprogram, htrace, hdrv, -, hticks, -⟩ :=
    sendFrameRefinesItsEngineProgram n s (frameEntry_of_frameRefusal hcheck)
  obtain rfl : t' = t := Host.Outcome.next.inj (ht'.symm.trans h)
  have hc : OnPace c := hs.runOperations (fun _ => layer_of_mem_frameProgram) hprogram
  rw [onPace_iff_keepsPace] at hc ⊢
  rwa [Bookkeeping, htrace, hdrv, hticks]

/-- Settles O36: an engine operation by the ticks it is made of, a frame by the engine program it refines. -/
theorem transitionsStayOneTickApart : Obligations.TransitionsStayOneTickApart := by
  intro i s t hl hbook hspaced h
  have hs : OnPace s := ⟨hbook, hspaced⟩
  have ht : OnPace t := by
    cases hi : i.layer with
    | lineDriver => exact absurd hi hl
    | protocolEngine => exact hs.exec_engine hi h
    | frameTransmitter =>
      cases i with
      | sendFrame n => exact hs.sendFrame h
      | _ => cases hi
  exact ht.2

end Sys2Proof.Machine
end

section
/-!
PROOFS of O21 and O27: the order of a value's bits on the wire, and that a frame does not read past its count.
-/

namespace Sys2Proof.Machine

/-! ## The bits of a value -/

/-- Bit `j` of byte `k` in the order sent is bit `8k + 7 - j` of the value. -/
theorem byteBit_valueByte (v : Value) (k j : Nat) :
    byteBit (valueByte v k) j = v.extractLsb' (8 * k + (7 - j)) 1 := by
  apply BitVec.eq_of_getLsbD_eq
  intro i hi
  have hbyte : 7 - j + i < 8 := by omega
  simp only [byteBit, valueByte, BitVec.getLsbD_extractLsb', hbyte, decide_true, Bool.true_and, Nat.add_assoc]

/-- Settles O21: each of the 32 bits by its place in its byte. -/
theorem payloadBitOrder : Obligations.PayloadBitOrder := by
  intro v
  simp [valueBytes, byteBits, byteBit_valueByte]

/-! ## The elements a frame reads -/

/-- The state with another caller's sequence in `VAL`. -/
def supply (vs : List Value) (s : State) : State := { s with values := vs }

theorem writeByteOp_supply (vs : List Value) (b : Byte) (s : State) :
    writeByteOp b (supply vs s) = supply vs (writeByteOp b s) := by
  simp only [writeByteOp_eq, supply, byteAnswer]

theorem openFrame_supply (vs : List Value) (n : Nat) (s : State) :
    openFrame n (supply vs s) = supply vs (openFrame n s) := by
  simp only [openFrame_eq, ← writeByteOp_supply]
  rfl

theorem sendValue_supply (vs : List Value) (s : State) : sendValue (supply vs s) = supply vs (sendValue s) := by
  have hbyte : ∀ s k, sendValueByte (supply vs s) k = supply vs (sendValueByte s k) :=
    fun s k => writeByteOp_supply vs _ { s with byteK := BitVec.ofNat 2 k }
  simp only [sendValue, List.foldl_cons, List.foldl_nil, hbyte]

/-- The value loop reads the elements it is given, not `VAL`. -/
theorem sendValues_supply (vs : List Value) (i : Nat) (us : List Value) (s : State) :
    sendValues i us (supply vs s) = supply vs (sendValues i us s) := by
  induction us generalizing i s with
  | nil => rfl
  | cons u us ih =>
    have hload : loadValue i u (supply vs s) = supply vs (loadValue i u s) := rfl
    rw [sendValues, hload, sendValue_supply, ih, sendValues]

theorem abortFrame_supply (vs : List Value) (s : State) : abortFrame (supply vs s) = supply vs (abortFrame s) := rfl

theorem closeFrame_supply (vs : List Value) (s : State) : closeFrame (supply vs s) = supply vs (closeFrame s) := rfl

/-- A frame reads `VAL` through its first `n` elements only. -/
theorem sendFrameOp_supply {vs : List Value} {n : Nat} {s : State} (h : vs.take n = s.values.take n) :
    sendFrameOp n (supply vs s) = supply vs (sendFrameOp n s) := by
  have hvalues : (openFrame n s).values = s.values := by rw [openFrame_eq, writeByteOp_eq]
  have hread : (supply vs (openFrame n s)).values.take n = (openFrame n s).values.take n := by rw [hvalues]; exact h
  have hack : (supply vs (openFrame n s)).ack = (openFrame n s).ack := rfl
  simp only [sendFrameOp, openFrame_supply, hread, hack, sendValues_supply, closeFrame_supply, abortFrame_supply]
  split_ifs <;> rfl

/-- Settles O27: the entry conditions hold of both sequences, and the frame reads the same of both. -/
theorem elementsPastTheCountAreNotRead : Obligations.ElementsPastTheCountAreNotRead := by
  intro n s vs hentry hlen htake
  have hentry' : FrameEntry n (supply vs s) := by
    obtain ⟨hbusy, hdrv, hphase, hport, -⟩ := hentry
    exact ⟨hbusy, hdrv, hphase, hport, hlen⟩
  refine ⟨_, exec_sendFrame_of_entry hentry, ?_⟩
  exact (exec_sendFrame_of_entry hentry').trans (congrArg _ (sendFrameOp_supply htake))

end Sys2Proof.Machine
end

section
/-!
PROOFS of O45, O46, O47 and O48. A row of the table has one of four kinds of operand, and one lemma for each kind says
which words the row decodes and to what (`decodePlain_eq_ok_iff` and the three after it). From right to left these
lemmas make decoding invert encoding, from left to right they make encoding invert decoding. The masks of the table are
of three kinds, which select the same words, so the rows of the table are the rows of the decoder. Last, the reason a
word that names no operation gets.
-/

namespace Sys2Proof

/-! ## The words of a row, by its operand -/

section
variable {w : Word} {op : BitVec 4} {i : Instr}

/-- A word is known by its three fields. -/
theorem wordOf_eq_iff (hop : opField w = op) (arg : Byte) :
    wordOf op arg = w ↔ zeroField w = 0 ∧ argField w = arg := by
  constructor
  · rintro rfl
    exact ⟨zeroField_wordOf op arg, argField_wordOf op arg⟩
  · rintro ⟨hzero, rfl⟩
    rw [← hop, wordOf_fields w hzero]

theorem argOfBit_eq_iff : ∀ (b : Bit) (arg : Byte),
    arg = argOfBit b ↔ arg.extractLsb' 1 7 = 0 ∧ arg.extractLsb' 0 1 = b := by
  decide

/-- A row checks its reserved bits and decodes. -/
theorem ite_ok_eq_ok_iff {p : Prop} [Decidable p] {j : Instr} {e : DecodeError} :
    (if p then Except.ok j else .error e) = .ok i ↔ p ∧ j = i := by
  split_ifs with h <;> simp [h]

theorem decodePlain_eq_ok_iff (hop : opField w = op) (j : Instr) :
    decodePlain j w = .ok i ↔ wordOf op 0 = w ∧ j = i := by
  rw [decodePlain, ite_ok_eq_ok_iff, wordOf_eq_iff hop]

theorem decodeBit_eq_ok_iff (hop : opField w = op) (mk : Bit → Instr) :
    decodeBit mk w = .ok i ↔ ∃ b, wordOf op (argOfBit b) = w ∧ mk b = i := by
  simp only [decodeBit, ite_ok_eq_ok_iff, wordOf_eq_iff hop, argOfBit_eq_iff, ← argHighField_eq, ← argLowField_eq]
  simp [and_assoc]

theorem decodeLine_eq_ok_iff (hop : opField w = op) (mk : Line → Instr) :
    decodeLine mk w = .ok i ↔ ∃ l, wordOf op (argOfBit (bitOfLine l)) = w ∧ mk l = i := by
  have hbit : decodeLine mk w = decodeBit (fun b => mk (lineOfBit b)) w := rfl
  rw [hbit, decodeBit_eq_ok_iff hop]
  constructor
  · rintro ⟨b, hw, hi⟩
    exact ⟨lineOfBit b, by rwa [bitOfLine_lineOfBit], hi⟩
  · rintro ⟨l, hw, hi⟩
    exact ⟨bitOfLine l, hw, by rwa [lineOfBit_bitOfLine]⟩

theorem decodeByte_eq_ok_iff (hop : opField w = op) (mk : Byte → Instr) :
    decodeByte mk w = .ok i ↔ ∃ arg, wordOf op arg = w ∧ mk arg = i := by
  simp only [decodeByte, ite_ok_eq_ok_iff, wordOf_eq_iff hop]
  simp

end

/-! ## Decoding and encoding are inverse -/

theorem toNat_ofNat_of_wellFormed {n : Nat} (h : (Instr.sendFrame n).wellFormed = true) :
    (BitVec.ofNat 8 n).toNat = n := by
  have hn := (wellFormed_sendFrame_iff n).1 h
  rw [BitVec.toNat_ofNat, Nat.mod_eq_of_lt (by omega)]

/-- Settles O45, row by row: the word's `op` selects the row, which gives the operand back. -/
theorem decodeInvertsEncode : Obligations.DecodeInvertsEncode := by
  intro i hwf
  cases i <;> rw [encode, decode, opField_wordOf]
  case driveLow l | releaseHigh l | sample l => exact (decodeLine_eq_ok_iff (opField_wordOf _ _) _).2 ⟨l, rfl, rfl⟩
  case delayBitTime | start | stop | readAck => exact (decodePlain_eq_ok_iff (opField_wordOf _ _) _).2 ⟨rfl, rfl⟩
  case writeBit b => exact (decodeBit_eq_ok_iff (opField_wordOf _ _) _).2 ⟨b, rfl, rfl⟩
  case writeByte b => exact (decodeByte_eq_ok_iff (opField_wordOf _ _) _).2 ⟨b, rfl, rfl⟩
  case sendFrame n =>
    exact (decodeByte_eq_ok_iff (opField_wordOf _ _) _).2
      ⟨_, rfl, congrArg Instr.sendFrame (toNat_ofNat_of_wellFormed hwf)⟩

theorem opField_eq_ofNat {w : Word} {k : Nat} (h : (opField w).toNat = k) : opField w = BitVec.ofNat 4 k := by
  rw [← h, BitVec.ofNat_toNat, BitVec.setWidth_eq]

/-- The count of an operation word is at most 255. -/
theorem wellFormed_sendFrame_toNat (arg : Byte) : (Instr.sendFrame arg.toNat).wellFormed = true :=
  (wellFormed_sendFrame_iff _).2 (Nat.le_of_lt_succ arg.isLt)

theorem encode_sendFrame_toNat (arg : Byte) : encode (.sendFrame arg.toNat) = wordOf 0x9 arg := by
  rw [encode, BitVec.ofNat_toNat, BitVec.setWidth_eq]

/-- Settles O46, row by row: the operation a row decodes is encoded from the operand the row found. -/
theorem encodeInvertsDecode : Obligations.EncodeInvertsDecode := by
  intro w i h
  unfold decode at h
  split at h
  case h_1 hop | h_2 hop | h_3 hop =>
    obtain ⟨l, rfl, rfl⟩ := (decodeLine_eq_ok_iff (opField_eq_ofNat hop) _).1 h
    exact ⟨rfl, rfl⟩
  case h_4 hop | h_5 hop | h_6 hop | h_8 hop =>
    obtain ⟨rfl, rfl⟩ := (decodePlain_eq_ok_iff (opField_eq_ofNat hop) _).1 h
    exact ⟨rfl, rfl⟩
  case h_7 hop =>
    obtain ⟨b, rfl, rfl⟩ := (decodeBit_eq_ok_iff (opField_eq_ofNat hop) _).1 h
    exact ⟨rfl, rfl⟩
  case h_9 hop =>
    obtain ⟨b, rfl, rfl⟩ := (decodeByte_eq_ok_iff (opField_eq_ofNat hop) _).1 h
    exact ⟨rfl, rfl⟩
  case h_10 hop =>
    obtain ⟨b, rfl, rfl⟩ := (decodeByte_eq_ok_iff (opField_eq_ofNat hop) _).1 h
    exact ⟨wellFormed_sendFrame_toNat b, encode_sendFrame_toNat b⟩
  case h_11 => cases h

/-! ## The rows of the table -/

theorem opRow_mem_opRows (i : Instr) : opRow i ∈ opRows := by
  cases i <;> simp [opRow, opRows]

/-- The word of a well-formed operation selects the operation's row. -/
theorem opRow_selects_encode (i : Instr) (h : i.wellFormed = true) : (opRow i).selects (encode i) = true := by
  have hrow : Laws.Row.Statement i := by
    cases i with
    | driveLow l => exact Laws.Row.driveLow l
    | releaseHigh l => exact Laws.Row.releaseHigh l
    | sample l => exact Laws.Row.sample l
    | delayBitTime => exact Laws.Row.delayBitTime
    | start => exact Laws.Row.start
    | stop => exact Laws.Row.stop
    | writeBit b => exact Laws.Row.writeBit b
    | readAck => exact Laws.Row.readAck
    | writeByte b => exact Laws.Row.writeByte b
    | sendFrame n => exact Laws.Row.sendFrame n
  exact (hrow h).1

/-- Two rows that select one word are one row, since the rows do not overlap. -/
theorem eq_of_selects {r q : OpRow} (hr : r ∈ opRows) (hq : q ∈ opRows) {w : Word} (hrw : r.selects w = true)
    (hqw : q.selects w = true) : r = q := by
  rw [OpRow.selects, beq_iff_eq] at hrw hqw
  have hsymm : Std.Symm fun r q : OpRow => r.pattern &&& (r.mask &&& q.mask) ≠ q.pattern &&& (r.mask &&& q.mask) :=
    ⟨fun r q h => by rw [BitVec.and_comm q.mask]; exact h.symm⟩
  by_contra hne
  refine opRows_disjoint.forall hr hq hne ?_
  rw [← hrw, ← hqw]
  ac_rfl

/-- A mask that covers `op` and `zero` settles both fields of the words of a row. -/
theorem fields_of_and_eq {op : BitVec 4} {m w : Word} (hop : opField m = BitVec.allOnes 4)
    (hzero : zeroField m = BitVec.allOnes 4) (h : w &&& m = wordOf op 0) : opField w = op ∧ zeroField w = 0 := by
  constructor
  · have hw := congrArg opField h
    rwa [opField_wordOf, opField, BitVec.extractLsb'_and, ← opField, ← opField, hop, BitVec.and_allOnes] at hw
  · have hw := congrArg zeroField h
    rwa [zeroField_wordOf, zeroField, BitVec.extractLsb'_and, ← zeroField, ← zeroField, hzero,
      BitVec.and_allOnes] at hw

/-- The row of an operation without operand selects one word. -/
theorem selects_mask_plain {op : BitVec 4} {w : Word} (h : (⟨wordOf op 0, 0xFFFF⟩ : OpRow).selects w = true) :
    wordOf op 0 = w := by
  have hand : w &&& BitVec.allOnes 16 = wordOf op 0 := beq_iff_eq.1 h
  rw [← hand, BitVec.and_allOnes]

/-- A mask that leaves out `arg[0]` selects the words of a bit. -/
theorem selects_mask_bit {op : BitVec 4} {w : Word} (h : (⟨wordOf op 0, 0xFFFE⟩ : OpRow).selects w = true) :
    ∃ b, wordOf op (argOfBit b) = w := by
  have hand : w &&& 0xFFFE = wordOf op 0 := beq_iff_eq.1 h
  obtain ⟨hop, hzero⟩ := fields_of_and_eq (by decide) (by decide) hand
  have hhigh : argHighField w = 0 := by
    have hw := congrArg argHighField hand
    have hmask : argHighField 0xFFFE = BitVec.allOnes 7 := by decide
    rwa [argHighField_eq (wordOf op 0), argField_wordOf, argHighField, BitVec.extractLsb'_and, ← argHighField,
      ← argHighField, hmask, BitVec.and_allOnes] at hw
  rw [argHighField_eq] at hhigh
  exact ⟨_, (wordOf_eq_iff hop _).2 ⟨hzero, (argOfBit_eq_iff _ _).2 ⟨hhigh, rfl⟩⟩⟩

/-- A mask that leaves out `arg` selects the words of a byte. -/
theorem selects_mask_byte {op : BitVec 4} {w : Word} (h : (⟨wordOf op 0, 0xFF00⟩ : OpRow).selects w = true) :
    ∃ arg, wordOf op arg = w := by
  have hand : w &&& 0xFF00 = wordOf op 0 := beq_iff_eq.1 h
  obtain ⟨hop, hzero⟩ := fields_of_and_eq (by decide) (by decide) hand
  exact ⟨_, (wordOf_eq_iff hop _).2 ⟨hzero, rfl⟩⟩

theorem exists_line_of_bit {P : Bit → Prop} (h : ∃ b, P b) : ∃ l, P (bitOfLine l) := by
  obtain ⟨b, hb⟩ := h
  exact ⟨lineOfBit b, by rwa [bitOfLine_lineOfBit]⟩

/-- A word that selects a row of the table is the word of an operation. -/
theorem exists_encode_of_selects {r : OpRow} (hr : r ∈ opRows) {w : Word} (h : r.selects w = true) :
    ∃ i : Instr, i.wellFormed = true ∧ encode i = w := by
  simp only [opRows, List.mem_cons, List.not_mem_nil, or_false] at hr
  obtain rfl | rfl | rfl | rfl | rfl | rfl | rfl | rfl | rfl | rfl := hr
  · obtain ⟨l, hl⟩ := exists_line_of_bit (selects_mask_bit (op := 0x0) h)
    exact ⟨.driveLow l, rfl, hl⟩
  · obtain ⟨l, hl⟩ := exists_line_of_bit (selects_mask_bit (op := 0x1) h)
    exact ⟨.releaseHigh l, rfl, hl⟩
  · obtain ⟨l, hl⟩ := exists_line_of_bit (selects_mask_bit (op := 0x2) h)
    exact ⟨.sample l, rfl, hl⟩
  · exact ⟨.delayBitTime, rfl, selects_mask_plain (op := 0x3) h⟩
  · exact ⟨.start, rfl, selects_mask_plain (op := 0x4) h⟩
  · exact ⟨.stop, rfl, selects_mask_plain (op := 0x5) h⟩
  · obtain ⟨b, hb⟩ := selects_mask_bit (op := 0x6) h
    exact ⟨.writeBit b, rfl, hb⟩
  · exact ⟨.readAck, rfl, selects_mask_plain (op := 0x7) h⟩
  · obtain ⟨b, hb⟩ := selects_mask_byte (op := 0x8) h
    exact ⟨.writeByte b, rfl, hb⟩
  · obtain ⟨b, hb⟩ := selects_mask_byte (op := 0x9) h
    exact ⟨.sendFrame b.toNat, wellFormed_sendFrame_toNat b, (encode_sendFrame_toNat b).trans hb⟩

/-- The word of an operation selects the operation's row. -/
theorem opRow_selects_of_decode {w : Word} {i : Instr} (h : decode w = .ok i) : (opRow i).selects w = true := by
  obtain ⟨hwf, rfl⟩ := encodeInvertsDecode w i h
  exact opRow_selects_encode i hwf

/-- Settles O47: an operation's word selects the operation's row and no other, and a row selects words of operations. -/
theorem wordsSelectRowsAsTheTableSays : Obligations.WordsSelectRowsAsTheTableSays := by
  refine ⟨fun w => ⟨?_, ?_⟩, fun w i h r hr => ⟨fun hrw => ?_, ?_⟩⟩
  · rintro ⟨i, h⟩
    exact ⟨opRow i, opRow_mem_opRows i, opRow_selects_of_decode h⟩
  · rintro ⟨r, hr, h⟩
    obtain ⟨i, hwf, rfl⟩ := exists_encode_of_selects hr h
    exact ⟨i, decodeInvertsEncode i hwf⟩
  · exact eq_of_selects hr (opRow_mem_opRows i) hrw (opRow_selects_of_decode h)
  · rintro rfl
    exact opRow_selects_of_decode h

/-- Settles O48: the words are those of the operations. -/
theorem wordsOfTheTable : Obligations.WordsOfTheTable :=
  ⟨decodeInvertsEncode (.driveLow .sda) rfl, decodeInvertsEncode (.releaseHigh .scl) rfl,
    decodeInvertsEncode (.sample .sda) rfl, decodeInvertsEncode .delayBitTime rfl,
    decodeInvertsEncode (.writeBit 1) rfl, decodeInvertsEncode (.writeByte 0x10) rfl,
    decodeInvertsEncode (.sendFrame 2) rfl, decodeInvertsEncode (.sendFrame 255) rfl⟩

/-! ## Words that name no operation -/

theorem decode_of_noSuchOperation {w : Word} (h : 0xA ≤ (opField w).toNat) :
    decode w = .error (.noSuchOperation w) := by
  unfold decode
  split
  case h_11 => rfl
  all_goals omega

theorem ite_ok_eq_error {p : Prop} [Decidable p] {j : Instr} {e f : DecodeError}
    (h : (if p then Except.ok j else .error e) = .error f) : f = e := by
  split_ifs at h
  cases h
  rfl

/-- A word whose `op` is one of the ten can only be refused for its reserved bits. -/
theorem eq_reservedBits_of_decode {w : Word} {e : DecodeError} (hop : (opField w).toNat < 0xA)
    (h : decode w = .error e) : e = .reservedBits w := by
  unfold decode at h
  split at h
  case h_11 =>
    simp only [imp_false] at *
    omega
  all_goals exact ite_ok_eq_error h

end Sys2Proof
end

section
/-!
PROOFS of O40 and O41: a step serves the word it takes, which is `exec` of what the word decodes to or the decoder's
refusal.
-/

namespace Sys2Proof.Machine

theorem step_of_operation {s : State} {w : Word} {rest : List Input} (h : s.inbox = .operation w :: rest) :
    step s = serveOperation w { s with inbox := rest } := by
  rw [step, takeInput, h]
  rfl

theorem serveOperation_of_decode {w : Word} {i : Instr} (h : decode w = .ok i) (s : State) :
    serveOperation w s = exec i s := by
  rw [serveOperation, h]

theorem serveOperation_of_error {w : Word} {e : DecodeError} (h : decode w = .error e) (s : State) :
    serveOperation w s = .refused (wordRefusal e) := by
  rw [serveOperation, h]

theorem decode_tableWord {nbits w : Nat} {i : Instr} (h : decodeTableWord nbits w = some i) :
    decode (tableWord nbits w) = .ok i := by
  unfold decodeTableWord at h
  split at h
  · cases h
    assumption
  · cases h

/-- Settles O40: the step serves the word it takes; to offer a word and take it again changes nothing else. -/
theorem stepRunsTheDecodedOperation : Obligations.StepRunsTheDecodedOperation := by
  constructor
  · intro s w rest i hin hdecode
    rw [step_of_operation hin, serveOperation_of_decode hdecode]
  · intro s nbits w i htable
    have hin : (s.withFetchWord nbits w).inbox = .operation (tableWord nbits w) :: s.inbox := offerWord_inbox _ s
    rw [step_of_operation hin, serveOperation_of_decode (decode_tableWord htable)]
    rfl

/-- Settles O41: a word that selects no row is refused by the decoder (O47), whose reason `op` settles. -/
theorem stepRefusesWordsThatNameNoOperation : Obligations.StepRefusesWordsThatNameNoOperation := by
  intro s w rest hin
  rw [step_of_operation hin]
  refine ⟨fun hop => ?_, fun hop hrows => ?_⟩
  · exact serveOperation_of_error (decode_of_noSuchOperation hop) _
  · cases hdecode : decode w with
    | ok i =>
      have hrow := List.all_eq_true.1 hrows (opRow i) (opRow_mem_opRows i)
      simp [opRow_selects_of_decode hdecode] at hrow
    | error e =>
      rw [serveOperation_of_error hdecode, eq_reservedBits_of_decode hop hdecode]
      rfl

end Sys2Proof.Machine
end

section
/-!
PROOFS of O18 and O19: the address byte, and that a value is its four bytes put together again.
-/

namespace Sys2Proof.Machine

/-- Settles O18, by computing the byte. -/
theorem addressByteIsSixteen : Obligations.AddressByteIsSixteen :=
  ⟨by decide, by decide, by decide⟩

/-- Four bytes put together give the value back: each of the 32 bits stands in one byte. -/
theorem valueOfBytes_valueByte (v : Value) :
    valueOfBytes (valueByte v 0) (valueByte v 1) (valueByte v 2) (valueByte v 3) = v := by
  apply BitVec.eq_of_getLsbD_eq
  intro i hi
  simp only [valueOfBytes, valueByte, BitVec.getLsbD_or, BitVec.getLsbD_shiftLeft, BitVec.getLsbD_setWidth,
    BitVec.getLsbD_extractLsb']
  interval_cases i <;> simp

/-- Settles O19: the slices are the bytes' definition, and a number that fits 32 bits is its pattern read as signed. -/
theorem valueBytesRoundTrip : Obligations.ValueBytesRoundTrip := by
  refine ⟨fun v => ⟨rfl, valueOfBytes_valueByte v⟩, fun n hlo hhi => ?_⟩
  rw [valueOfBytes_valueByte]
  exact BitVec.toInt_ofInt_eq_self (by decide) hlo hhi

end Sys2Proof.Machine
end

section
/-!
PROOFS of O15, O16, O49 and O13: what the engine's operations put on the wire, and what they refuse to put there. The
wire is read through two facts about a call trace: the marks of each operation's primitives (`Laws/Trace`), which give
the symbols of a byte, and the bits since the last START, on which the check for a read request rests. A frame ends with
STOP, so it leaves no transaction open whatever its bytes were.
-/

namespace Sys2Proof.Machine

/-! ## The check of a cell -/

section
variable {i : Instr} {s : State} (hp : s.phase = .started ∨ s.phase = .byteActive) (hd : s.drv.scl = .drivenLow)
include hp hd

/-- In a transaction with the clock low, a cell that asks for no read is performed. -/
theorem guarded_eq_next_of_open (hr : askedRead i s.trace = none) (after : State) :
    guarded ((transactionRefusal i s).or (readRequestRefusal i s)) after = .next after := by
  rw [(transactionRefusal_eq_none_iff i s).2 ⟨hp, hd⟩, (readRequestRefusal_eq_none_iff i s).2 hr]
  rfl

/-- There, a cell that asks for a read is refused by the byte that asks. -/
theorem guarded_eq_refused_of_open {b : Byte} (hr : askedRead i s.trace = some b) (after : State) :
    guarded ((transactionRefusal i s).or (readRequestRefusal i s)) after = .refused (.readRequest b) := by
  rw [(transactionRefusal_eq_none_iff i s).2 ⟨hp, hd⟩, readRequestRefusal, hr]
  rfl

theorem exec_writeBit_of_open {b : Bit} (hr : askedRead (.writeBit b) s.trace = none) :
    exec (.writeBit b) s = .next (writeBitOp b s) :=
  guarded_eq_next_of_open hp hd hr _

theorem exec_readAck_of_open (hr : askedRead .readAck s.trace = none) : exec .readAck s = .next (readAckOp s) :=
  guarded_eq_next_of_open hp hd hr _

end

/-- Inside its entry table an engine operation completes. -/
theorem exec_of_engineEntry {i : Instr} {s : State} (h : engineEntry i s = true) : ∃ t, exec i s = .next t := by
  cases i <;> simp only [engineEntry, Bool.and_eq_true, Bool.or_eq_true, decide_eq_true_eq, Option.isNone_iff_eq_none,
    Bool.false_eq_true] at h
  case start =>
    have hcheck : startRefusal s = none := (startRefusal_eq_none_iff s).2 (by tauto)
    exact ⟨_, (guarded_eq_next_iff _ _ _).2 ⟨hcheck, rfl⟩⟩
  case stop => exact ⟨_, exec_stop_of_open h.1 h.2⟩
  case writeBit b =>
    obtain ⟨⟨hp, hd⟩, hr⟩ := h
    exact ⟨_, exec_writeBit_of_open hp hd hr⟩
  case readAck =>
    obtain ⟨⟨hp, hd⟩, hr⟩ := h
    exact ⟨_, exec_readAck_of_open hp hd hr⟩
  case writeByte b =>
    obtain ⟨⟨hp, hd⟩, hr⟩ := h
    exact ⟨_, exec_writeByte_of_open hp hd hr⟩

/-! ## The marks of each operation -/

theorem drv_of_startRefusal_idle {s : State} (hr : startRefusal s = none) (hp : s.phase = .idle) :
    s.drv = ⟨.releasedHigh, .releasedHigh⟩ := by
  simpa [hp] using (startRefusal_eq_none_iff s).1 hr

theorem drv_of_startRefusal_byteActive {s : State} (hr : startRefusal s = none) (hp : s.phase = .byteActive) :
    s.drv = ⟨.drivenLow, .releasedHigh⟩ := by
  have hentry := (startRefusal_eq_none_iff s).1 hr
  simp only [hp, reduceCtorEq, false_and, false_or] at hentry
  exact hentry.2.1

theorem marksFrom_startTrace_of_idle : marksFrom ⟨.releasedHigh, .releasedHigh⟩ startTrace = [.start] := rfl

/-- Between bytes the clock is low, so the observer reads its release as one stray bit. -/
theorem marksFrom_startTrace_of_byteActive :
    marksFrom ⟨.drivenLow, .releasedHigh⟩ startTrace = [.bit 1 none, .start] := rfl

theorem eq_drivenLow_of_scl {d : Drives} (h : d.scl = .drivenLow) : d = ⟨.drivenLow, d.sda⟩ := by rw [← h]

section
variable {d : Drives} (h : d.scl = .drivenLow)
include h

theorem marksFrom_stopTrace : marksFrom d stopTrace = [.bit 0 none, .stop] := by
  obtain ⟨scl, sda⟩ := d
  cases h
  cases sda <;> rfl

theorem marksFrom_bitCell (b : Bit) : marksFrom d (bitCell b) = [.bit b none] := by
  rw [eq_drivenLow_of_scl h, ← List.append_nil (bitCell b), marksFrom_bitCell_append, marksFrom_nil]

theorem marksFrom_ackCell (a : Bit) : marksFrom d (ackCell a) = [.bit 1 (some a)] := by
  rw [eq_drivenLow_of_scl h, ← List.append_nil (ackCell a), marksFrom_ackCell_append, marksFrom_nil]

theorem marksFrom_byteTrace (b : Byte) (a : Bit) :
    marksFrom d (byteTrace b a) = ((byteBits b).map fun c => Mark.bit c none) ++ [.bit 1 (some a)] := by
  rw [eq_drivenLow_of_scl h, ← List.append_nil (byteTrace b a), marksFrom_byteTrace_append, marksFrom_nil]

end

/-- Settles O15: the operation completes, and its primitives make the marks of the lemmas above. -/
theorem onlyStartAndStopMoveDataWhileClockHigh : Obligations.OnlyStartAndStopMoveDataWhileClockHigh := by
  intro i s hl hentry
  obtain ⟨t, ht⟩ := exec_of_engineEntry hentry
  have hopen := fun h => ((transactionRefusal_eq_none_iff i s).1 h).2
  obtain ⟨l, rfl, -⟩ | ⟨l, rfl, -⟩ | ⟨l, rfl, -⟩ | ⟨rfl, -⟩ | ⟨rfl, hr, rfl⟩ | ⟨rfl, hr, rfl⟩ | ⟨b, rfl, hr, -, rfl⟩ |
    ⟨rfl, hr, -, rfl⟩ | ⟨b, rfl, hr, -, rfl⟩ | ⟨n, rfl, -⟩ := exec_eq_next ht
  · cases hl
  · cases hl
  · cases hl
  · cases hl
  · refine ⟨_, startTrace, ht, by rw [startOp_eq], fun _ hp => ?_, fun _ hp => ?_, nofun, nofun, nofun, nofun⟩
    · rw [drv_of_startRefusal_idle hr hp, marksFrom_startTrace_of_idle]
    · rw [drv_of_startRefusal_byteActive hr hp, marksFrom_startTrace_of_byteActive]
  · refine ⟨_, stopTrace, ht, by rw [stopOp_eq], nofun, nofun, fun _ => ?_, nofun, nofun, nofun⟩
    exact marksFrom_stopTrace (hopen hr)
  · refine ⟨_, bitCell b, ht, by rw [writeBitOp_eq], nofun, nofun, nofun, ?_, nofun, nofun⟩
    rintro _ ⟨⟩
    exact marksFrom_bitCell (hopen hr) b
  · refine ⟨_, ackCell (ackAnswer s), ht, by rw [readAckOp_eq], nofun, nofun, nofun, nofun, fun _ => ?_, nofun⟩
    exact ⟨_, rfl, marksFrom_ackCell (hopen hr) _⟩
  · refine ⟨_, byteTrace b (byteAnswer b s), ht, by rw [writeByteOp_eq], nofun, nofun, nofun, nofun, nofun, ?_⟩
    rintro _ ⟨⟩
    exact ⟨_, samplesOf_byteTrace _ _, marksFrom_byteTrace (hopen hr) b _⟩
  · cases hl

/-! ## A byte as the observer reads it -/

/-- The nine marks of a byte make one symbol (R78). -/
theorem symbolsFrom_byte (b : Byte) (a : Bit) (ms : List Mark) :
    symbolsFrom (some []) (((byteBits b).map fun c => Mark.bit c none) ++ (.bit 1 (some a) :: ms)) =
      .byte b a :: symbolsFrom (some []) ms := by
  have hbyte : byteOfBits (byteBits b) = b := byteOfBits_byteBits b
  simp only [byteBits] at hbyte
  simp [byteBits, symbolsFrom, hbyte]

theorem ackOf_eq_one_iff : ∀ a : Bit, ackOf a = 1 ↔ a = 0 := by decide

/-- Settles O16: the byte's nine marks are one symbol, and its sample is the answer `x[ack]` is taken from. -/
theorem writeByteReadsAsItsByte : Obligations.WriteByteReadsAsItsByte := by
  intro B s hentry
  obtain ⟨t, ht⟩ := exec_of_engineEntry hentry
  obtain ⟨hcheck, rfl⟩ := (guarded_eq_next_iff _ _ _).1 ht
  obtain ⟨htable, -⟩ := Option.or_eq_none_iff.1 hcheck
  obtain ⟨-, hclock⟩ := (transactionRefusal_eq_none_iff _ s).1 htable
  refine ⟨_, byteTrace B (byteAnswer B s), _, ht, by rw [writeByteOp_eq], samplesOf_byteTrace _ _, ?_, ?_⟩
  · rw [marksFrom_byteTrace hclock, symbolsFrom_byte]
    rfl
  · rw [writeByteOp_eq]
    exact ackOf_eq_one_iff _

/-! ## Read requests -/

/-- The byte a first byte of eight bits with bit 0 set is refused by. -/
theorem readRequested_eq_some {trace : List Event} {g bits : List Bit} (h : openBits trace = some g)
    (hlen : g.length < 8) (hbit : (g ++ bits)[7]? = some 1) :
    readRequested trace bits = some (byteOfBits ((g ++ bits).take 8)) := by
  simp only [readRequested, h]
  exact if_pos ⟨hlen, hbit⟩

theorem readRequested_eq_none_of_ne {trace : List Event} {g bits : List Bit} (h : openBits trace = some g)
    (hbit : (g ++ bits)[7]? ≠ some 1) : readRequested trace bits = none := by
  simp only [readRequested, h]
  exact if_neg fun hr => hbit hr.2

section
variable {trace : List Event} {g : List Bit} {b : Byte} (h : openBits trace = some g)
include h

theorem askedRead_writeByte_of_odd (hlen : g.length < 8) (hodd : b.extractLsb' 0 1 = 1) :
    askedRead (.writeByte b) trace = some b := by
  simp only [askedRead, h]
  exact if_pos ⟨hlen, hodd⟩

theorem askedRead_writeByte_of_even (heven : b.extractLsb' 0 1 = 0) :
    askedRead (.writeByte b) trace = readRequested trace (byteBits b) := by
  simp [askedRead, h, heven]

end

/-- Settles O13: the byte each operation asks for, by the number of bits on the wire. -/
theorem readRequestIsRefused : Obligations.ReadRequestIsRefused := by
  intro s hp hd
  refine ⟨fun B g hg hlen => ⟨fun hodd => ?_, fun heven hbit => ?_, fun heven hbit => ?_⟩, fun g hg hlen => ?_,
    fun b g hg hlen => ?_, fun B b hfull => ?_⟩
  · exact guarded_eq_refused_of_open hp hd (askedRead_writeByte_of_odd hg hlen hodd) _
  · refine guarded_eq_refused_of_open hp hd ?_ _
    rw [askedRead_writeByte_of_even hg heven, readRequested_eq_some hg hlen hbit]
  · refine ⟨_, exec_writeByte_of_open hp hd ?_, by rw [writeByteOp_eq]⟩
    rw [askedRead_writeByte_of_even hg heven, readRequested_eq_none_of_ne hg (by rw [hbit]; decide)]
  · have hone : readRequested s.trace [1] = some (byteOfBits (g ++ [1])) := by
      rw [readRequested_eq_some hg (by omega) (by simp [hlen]), List.take_of_length_le (by simp [hlen])]
    refine ⟨guarded_eq_refused_of_open (i := .writeBit 1) hp hd hone _,
      guarded_eq_refused_of_open (i := .readAck) hp hd hone _, _, exec_writeBit_of_open hp hd ?_⟩
    exact readRequested_eq_none_of_ne hg (by simp [hlen])
  · have hshort : ∀ c : Bit, readRequested s.trace [c] = none := fun c =>
      readRequested_eq_none_of_ne hg (by rw [List.getElem?_eq_none (by simp; omega)]; nofun)
    exact ⟨⟨_, exec_writeBit_of_open hp hd (hshort b)⟩, _, exec_readAck_of_open hp hd (hshort 1)⟩
  · have hnone := askedRead_eq_none hfull
    exact ⟨⟨_, exec_writeByte_of_open hp hd (hnone _), by rw [writeByteOp_eq]⟩,
      ⟨_, exec_writeBit_of_open hp hd (hnone _)⟩, _, exec_readAck_of_open hp hd (hnone _)⟩

/-! ## The bits since the last START -/

theorem asksForNoRead_iff (s : State) :
    asksForNoRead s = true ↔ ∀ g, openBits s.trace = some g → g[7]? ≠ some 1 := by
  unfold asksForNoRead
  cases openBits s.trace <;> simp

theorem asksForNoRead_of_closed {s : State} (h : openBits s.trace = none) : asksForNoRead s = true := by
  simp [asksForNoRead, h]

theorem asksForNoRead_of_started {s : State} (h : openBits s.trace = some []) : asksForNoRead s = true := by
  simp [asksForNoRead, h]

theorem length_byteBits (b : Byte) : (byteBits b).length = 8 := rfl

/-- Once eight bits are put the first byte is settled, so the bits after them do not change what is asked for. -/
theorem readRequested_append {bits : List Bit} (h : 8 ≤ bits.length) (trace : List Event) (more : List Bit) :
    readRequested trace (bits ++ more) = readRequested trace bits := by
  unfold readRequested
  cases openBits trace with
  | none => rfl
  | some g =>
    have hlen : 8 ≤ (g ++ bits).length := by simp; omega
    simp only [← List.append_assoc, List.getElem?_append_left hlen, List.take_append_of_le_length hlen]

/-- Bits that ask for no read leave the first byte without a read request. -/
theorem asksForNoRead_of_append {s t : State} {bits : List Bit} (hs : asksForNoRead s = true)
    (hbits : openBits t.trace = (openBits s.trace).map (· ++ bits)) (hr : readRequested s.trace bits = none) :
    asksForNoRead t = true := by
  rw [asksForNoRead_iff] at hs ⊢
  intro g' hg'
  rw [hbits] at hg'
  obtain ⟨g, hg, rfl⟩ := Option.map_eq_some_iff.1 hg'
  by_cases hlen : g.length < 8
  · intro hbit
    rw [readRequested_eq_some hg hlen hbit] at hr
    cases hr
  · rw [List.getElem?_append_left (by omega)]
    exact hs g hg

section
variable {trace : List Event} (h : (replay Drives.released trace).scl = .drivenLow)
include h

theorem openBits_append_stopTrace : openBits (trace ++ stopTrace) = none := by
  rw [openBits_append, marksFrom_stopTrace h]
  rfl

theorem openBits_append_bitCell (b : Bit) : openBits (trace ++ bitCell b) = (openBits trace).map (· ++ [b]) := by
  rw [openBits_append, marksFrom_bitCell h]
  rfl

/-- The released data line of an acknowledgment cell counts as 1. -/
theorem openBits_append_ackCell (a : Bit) : openBits (trace ++ ackCell a) = (openBits trace).map (· ++ [1]) := by
  rw [openBits_append, marksFrom_ackCell h]
  rfl

end

theorem FirstByteSent.after_writeBytesOp {s : State} (h : FirstByteSent s) (bs : List Byte) :
    FirstByteSent (writeBytesOp bs s) := by
  induction bs generalizing s with
  | nil => exact h
  | cons b bs ih => exact ih (h.after_writeByteOp b)

/-- A frame ends with STOP, so no transaction is open after it. -/
theorem openBits_sendFrameOp (n : Nat) (s : State) : openBits (sendFrameOp n s).trace = none := by
  obtain ⟨htrace, -⟩ := fields_eq_of_engineView_eq (engineView_sendFrameOp n s)
  obtain ⟨-, hclock, -⟩ := (firstByteSent_openEngine s).after_writeBytesOp
    (payloadBytes (sendFrameOp n s).result (s.values.take n))
  rw [htrace, stopOp_eq]
  exact openBits_append_stopTrace hclock

/-- Settles O49: `start` and `stop` begin or end the transaction, a cell is checked, and a frame ends with STOP. -/
theorem noFirstByteAsksForARead : Obligations.NoFirstByteAsksForARead := by
  intro i s t hl hbook hs h
  have hclock : transactionRefusal i s = none → (replay Drives.released s.trace).scl = .drivenLow := fun hr => by
    rw [← hbook.1]
    exact ((transactionRefusal_eq_none_iff i s).1 hr).2
  have hasked : readRequestRefusal i s = none → askedRead i s.trace = none := (readRequestRefusal_eq_none_iff i s).1
  obtain ⟨l, rfl, -⟩ | ⟨l, rfl, -⟩ | ⟨l, rfl, -⟩ | ⟨rfl, -⟩ | ⟨-, -, rfl⟩ | ⟨-, hr, rfl⟩ | ⟨b, rfl, hr, hread, rfl⟩ |
    ⟨rfl, hr, hread, rfl⟩ | ⟨b, rfl, hr, hread, rfl⟩ | ⟨n, -, -, rfl⟩ := exec_eq_next h
  · exact absurd rfl hl
  · exact absurd rfl hl
  · exact absurd rfl hl
  · exact absurd rfl hl
  · exact asksForNoRead_of_started (openBits_startOp s)
  · refine asksForNoRead_of_closed ?_
    rw [stopOp_eq]
    exact openBits_append_stopTrace (hclock hr)
  · refine asksForNoRead_of_append hs ?_ (hasked hread)
    rw [writeBitOp_eq]
    exact openBits_append_bitCell (hclock hr) b
  · refine asksForNoRead_of_append hs ?_ (hasked hread)
    rw [readAckOp_eq]
    exact openBits_append_ackCell (hclock hr) _
  · refine asksForNoRead_of_append (bits := byteBits b ++ [1]) hs ?_ ?_
    · rw [writeByteOp_eq]
      exact openBits_append_byteTrace (hclock hr) b _
    · rw [readRequested_append (length_byteBits b).ge]
      exact readRequested_eq_none_of_askedRead (hasked hread)
  · exact asksForNoRead_of_closed (openBits_sendFrameOp n s)

end Sys2Proof.Machine
end

section
/-!
PROOFS of O34, O1, O2, O3 and O4: the four primitives of the Line Driver, and that the layers above sample the data line
only. Each engine operation appends cells whose one sample, if any, is of the data line; such additions compose, and a
frame makes the call trace of its engine program (O29), which is a composition of them.
-/

namespace Sys2Proof.Machine

/-! ## Call traces without a sample of the clock line -/

/-- No event of the call trace samples the clock line. -/
def ClockUnsampled (w : List Event) : Prop := ∀ b, Event.sample .scl b ∉ w

theorem clockUnsampled_append_iff (u w : List Event) :
    ClockUnsampled (u ++ w) ↔ ClockUnsampled u ∧ ClockUnsampled w := by
  simp only [ClockUnsampled, List.mem_append, not_or, forall_and]

theorem clockUnsampled_startTrace : ClockUnsampled startTrace := by
  simp [ClockUnsampled, startTrace]

theorem clockUnsampled_stopTrace : ClockUnsampled stopTrace := by
  simp [ClockUnsampled, stopTrace]

theorem clockUnsampled_bitCell (b : Bit) : ClockUnsampled (bitCell b) := by
  rcases bit_eq_zero_or_one b with rfl | rfl <;> simp [ClockUnsampled, bitCell, putBitEvent]

/-- The one sample of an acknowledgment cell is of the data line. -/
theorem clockUnsampled_ackCell (a : Bit) : ClockUnsampled (ackCell a) := by
  simp [ClockUnsampled, ackCell]

theorem clockUnsampled_byteTrace (b : Byte) (a : Bit) : ClockUnsampled (byteTrace b a) := by
  refine (clockUnsampled_append_iff _ _).2 ⟨fun c hc => ?_, clockUnsampled_ackCell a⟩
  obtain ⟨bit, -, hbit⟩ := List.mem_flatMap.1 hc
  exact clockUnsampled_bitCell bit c hbit

/-! ## Operations that do not sample the clock line -/

/-- From `s` to `t` the call trace grew by events none of which samples the clock line. -/
def NoClockSample (s t : State) : Prop := ∃ w, t.trace = s.trace ++ w ∧ ClockUnsampled w

theorem NoClockSample.refl (s : State) : NoClockSample s s := ⟨[], by simp, by simp [ClockUnsampled]⟩

theorem NoClockSample.trans {s t u : State} (h : NoClockSample s t) (k : NoClockSample t u) : NoClockSample s u := by
  obtain ⟨w, htrace, hw⟩ := h
  obtain ⟨v, ktrace, kv⟩ := k
  exact ⟨w ++ v, by rw [ktrace, htrace, List.append_assoc], (clockUnsampled_append_iff w v).2 ⟨hw, kv⟩⟩

theorem noClockSample_startOp (s : State) : NoClockSample s (startOp s) :=
  ⟨startTrace, by rw [startOp_eq], clockUnsampled_startTrace⟩

theorem noClockSample_stopOp (s : State) : NoClockSample s (stopOp s) :=
  ⟨stopTrace, by rw [stopOp_eq], clockUnsampled_stopTrace⟩

theorem noClockSample_writeBitOp (b : Bit) (s : State) : NoClockSample s (writeBitOp b s) :=
  ⟨bitCell b, by rw [writeBitOp_eq], clockUnsampled_bitCell b⟩

theorem noClockSample_readAckOp (s : State) : NoClockSample s (readAckOp s) :=
  ⟨ackCell (ackAnswer s), by rw [readAckOp_eq], clockUnsampled_ackCell _⟩

theorem noClockSample_writeByteOp (b : Byte) (s : State) : NoClockSample s (writeByteOp b s) :=
  ⟨byteTrace b (byteAnswer b s), by rw [writeByteOp_eq], clockUnsampled_byteTrace b _⟩

theorem noClockSample_writeBytesOp (bs : List Byte) (s : State) : NoClockSample s (writeBytesOp bs s) := by
  induction bs generalizing s with
  | nil => exact .refl s
  | cons b bs ih => exact (noClockSample_writeByteOp b s).trans (ih _)

/-- A frame makes the call trace of `start`, bytes and `stop`. -/
theorem noClockSample_sendFrameOp (n : Nat) (s : State) : NoClockSample s (sendFrameOp n s) := by
  obtain ⟨htrace, -⟩ := fields_eq_of_engineView_eq (engineView_sendFrameOp n s)
  rw [NoClockSample, htrace]
  have hopen : NoClockSample s (openEngine s) := (noClockSample_startOp s).trans (noClockSample_writeByteOp addrByte _)
  exact hopen.trans ((noClockSample_writeBytesOp _ _).trans (noClockSample_stopOp _))

/-- An operation above the Line Driver that completes, whichever it is, adds no sample of the clock line. -/
theorem exec_noClockSample {i : Instr} {s t : State} (hl : i.layer ≠ .lineDriver) (h : exec i s = .next t) :
    NoClockSample s t := by
  obtain ⟨l, rfl, -⟩ | ⟨l, rfl, -⟩ | ⟨l, rfl, -⟩ | ⟨rfl, -⟩ | ⟨-, -, rfl⟩ | ⟨-, -, rfl⟩ | ⟨b, -, -, -, rfl⟩ |
    ⟨-, -, -, rfl⟩ | ⟨b, -, -, -, rfl⟩ | ⟨n, -, -, rfl⟩ := exec_eq_next h
  · exact absurd rfl hl
  · exact absurd rfl hl
  · exact absurd rfl hl
  · exact absurd rfl hl
  · exact noClockSample_startOp s
  · exact noClockSample_stopOp s
  · exact noClockSample_writeBitOp b s
  · exact noClockSample_readAckOp s
  · exact noClockSample_writeByteOp b s
  · exact noClockSample_sendFrameOp n s

/-- Settles O34: what `NoClockSample` says of an operation above the Line Driver. -/
theorem clockIsNeverSampledAboveTheLineDriver : Obligations.ClockIsNeverSampledAboveTheLineDriver :=
  fun _ _ _ hl h => exec_noClockSample hl h

/-! ## The primitives -/

theorem exec_driveLow (l : Line) (s : State) : exec (.driveLow l) s = .next (driveLow l s) := rfl

theorem exec_releaseHigh (l : Line) (s : State) : exec (.releaseHigh l) s = .next (releaseHigh l s) := rfl

theorem exec_sample (l : Line) (s : State) : exec (.sample l) s = .next (sampleLine l s) := rfl

theorem exec_delayBitTime (s : State) : exec .delayBitTime s = .next (delayBitTime s) := rfl

theorem level_driveLow (l : Line) (s : State) : level l (driveLow l s) = 0 := by
  obtain ⟨-, hlow, -⟩ := levelIsTheWiredAnd (driveLow l s)
  exact hlow l (Drives.get_set_self s.drv l .drivenLow)

theorem level_releaseHigh (l : Line) (s : State) :
    level l (releaseHigh l s) = envContribution l (releaseHigh l s) := by
  obtain ⟨-, -, hhigh, -⟩ := levelIsTheWiredAnd (releaseHigh l s)
  exact hhigh l (Drives.get_set_self s.drv l .releasedHigh)

/-- The clock line's level is the master's own (D19). -/
theorem level_scl (s : State) : level .scl s = s.drv.scl.bit := by
  obtain ⟨-, -, -, hclock⟩ := levelIsTheWiredAnd s
  exact hclock

theorem transitionsFrom_driveLow (d : Drives) (n : Nat) (l : Line) :
    transitionsFrom d n [.driveLow l] = lineChange d n l .drivenLow := List.append_nil _

theorem transitionsFrom_releaseHigh (d : Drives) (n : Nat) (l : Line) :
    transitionsFrom d n [.releaseHigh l] = lineChange d n l .releasedHigh := List.append_nil _

/-- Settles O1: the write of each line, the level it leaves, and the change it makes. -/
theorem driveLowPullsOneLine : Obligations.DriveLowPullsOneLine := by
  refine ⟨decodeInvertsEncode (.driveLow .scl) rfl, decodeInvertsEncode (.driveLow .sda) rfl, fun s => ⟨?_, ?_, ?_⟩⟩
  · rw [exec_driveLow, driveLow_eq, Drives.set_scl]
  · rw [exec_driveLow, driveLow_eq, Drives.set_sda]
  · exact fun l => ⟨_, exec_driveLow l s, level_driveLow l s, transitionsFrom_driveLow _ _ l⟩

/-- Settles O2: the write of each line, the level it leaves, and the change it makes. -/
theorem releaseHighFreesOneLine : Obligations.ReleaseHighFreesOneLine := by
  refine ⟨decodeInvertsEncode (.releaseHigh .scl) rfl, decodeInvertsEncode (.releaseHigh .sda) rfl,
    fun s => ⟨?_, ?_, ?_⟩⟩
  · rw [exec_releaseHigh, releaseHigh_eq, Drives.set_scl]
  · rw [exec_releaseHigh, releaseHigh_eq, Drives.set_sda]
  · exact fun l => ⟨_, exec_releaseHigh l s, level_releaseHigh l s, transitionsFrom_releaseHigh _ _ l⟩

/-- Settles O3: the event carries the level of the line, and only the data line uses an answer up. -/
theorem sampleReturnsTheLevel : Obligations.SampleReturnsTheLevel := by
  refine ⟨decodeInvertsEncode (.sample .scl) rfl, decodeInvertsEncode (.sample .sda) rfl, fun s => ⟨?_, ?_⟩⟩
  · rw [exec_sample, sampleLine_scl_eq, level_scl]
  · rw [exec_sample, sampleLine_sda_eq]
    rfl

/-- Settles O4: one tick more is one Bit-Time more at least. -/
theorem delayAdvancesOneTick : Obligations.DelayAdvancesOneTick :=
  ⟨decodeInvertsEncode .delayBitTime rfl, fun s =>
    ⟨_, exec_delayBitTime s, delayBitTime_eq s, Nat.succ_mul s.ticks s.cfg.tBit⟩⟩

end Sys2Proof.Machine
end

section
/-!
PROOFS of O10, O11, O14, O17, O6, O7, O8, O9 and O12: the Protocol Engine's table (R127, R128). Inside its entry table
an operation is its shared operation, whose equation in `Laws/Ops` is the whole next state, so phase, lines and cost are
read off it; and an operation that completes was inside, so outside the table `exec`, which never faults, refuses. What
the refusal names is what the first failing check of R127 answers.
-/

namespace Sys2Proof.Machine

/-! ## Inside and outside the entry table -/

/-- An engine operation that completes passed its checks and gives the state its shared operation gives. -/
theorem exec_engine_eq_next {i : Instr} {s t : State} (hl : i.layer = .protocolEngine) (h : exec i s = .next t) :
    (i = .start ∧ startRefusal s = none ∧ t = startOp s) ∨
    (i = .stop ∧ transactionRefusal i s = none ∧ t = stopOp s) ∨
    (∃ b, i = .writeBit b ∧ transactionRefusal i s = none ∧ readRequestRefusal i s = none ∧ t = writeBitOp b s) ∨
    (i = .readAck ∧ transactionRefusal i s = none ∧ readRequestRefusal i s = none ∧ t = readAckOp s) ∨
    (∃ b, i = .writeByte b ∧ transactionRefusal i s = none ∧ readRequestRefusal i s = none ∧ t = writeByteOp b s) := by
  obtain ⟨l, rfl, -⟩ | ⟨l, rfl, -⟩ | ⟨l, rfl, -⟩ | ⟨rfl, -⟩ | hstart | hstop | hbit | hack | hbyte | ⟨n, rfl, -⟩ :=
    exec_eq_next h
  · cases hl
  · cases hl
  · cases hl
  · cases hl
  · exact .inl hstart
  · exact .inr (.inl hstop)
  · exact .inr (.inr (.inl hbit))
  · exact .inr (.inr (.inr (.inl hack)))
  · exact .inr (.inr (.inr (.inr hbyte)))
  · cases hl

theorem exec_start_of_startRefusal {s : State} (h : startRefusal s = none) : exec .start s = .next (startOp s) :=
  (guarded_eq_next_iff _ _ _).2 ⟨h, rfl⟩

/-- The entry table is no wider than the checks allow: the converse of `exec_of_engineEntry`. -/
theorem engineEntry_of_exec {i : Instr} {s t : State} (hl : i.layer = .protocolEngine) (h : exec i s = .next t) :
    engineEntry i s = true := by
  have hcell := (transactionRefusal_eq_none_iff i s).1
  have hread := (readRequestRefusal_eq_none_iff i s).1
  obtain ⟨rfl, hr, -⟩ | ⟨rfl, hr, -⟩ | ⟨b, rfl, hr, hq, -⟩ | ⟨rfl, hr, hq, -⟩ | ⟨b, rfl, hr, hq, -⟩ :=
    exec_engine_eq_next hl h
  · rcases (startRefusal_eq_none_iff s).1 hr with ⟨hp, hd⟩ | ⟨hp, hd, hb⟩
    · simp [engineEntry, hp, hd]
    · simp [engineEntry, hp, hd, hb]
  · simp [engineEntry, hcell hr]
  · simp [engineEntry, hcell hr, hread hq]
  · simp [engineEntry, hcell hr, hread hq]
  · simp [engineEntry, hcell hr, hread hq]

/-- Outside its entry table an engine operation is refused: it does not complete, and nothing faults. -/
theorem exec_refused_of_engineEntry {i : Instr} {s : State} (hl : i.layer = .protocolEngine)
    (h : engineEntry i s = false) : ∃ r, exec i s = .refused r := by
  cases hexec : exec i s with
  | next t => simp [engineEntry_of_exec hl hexec] at h
  | fault r => nomatch r
  | refused r => exact ⟨r, rfl⟩

/-- An engine operation that completes leaves the phase and the lines the exit table names. -/
theorem exec_engine_exit {i : Instr} {s t : State} (hl : i.layer = .protocolEngine) (h : exec i s = .next t) :
    t.phase = engineExitPhase i s ∧ t.drv = engineExitDrives i s := by
  obtain ⟨rfl, -, rfl⟩ | ⟨rfl, -, rfl⟩ | ⟨b, rfl, -, -, rfl⟩ | ⟨rfl, -, -, rfl⟩ | ⟨b, rfl, -, -, rfl⟩ :=
    exec_engine_eq_next hl h
  · rw [startOp_eq]; exact ⟨rfl, rfl⟩
  · rw [stopOp_eq]; exact ⟨rfl, rfl⟩
  · rw [writeBitOp_eq]; exact ⟨rfl, rfl⟩
  · rw [readAckOp_eq]; exact ⟨rfl, rfl⟩
  · rw [writeByteOp_eq]; exact ⟨rfl, rfl⟩

/-- Settles O11: the entry table is where the checks pass, and the exit table is what the shared operations leave. -/
theorem engineKeepsItsTable : Obligations.EngineKeepsItsTable := by
  refine fun i s hl => ⟨fun hentry => ?_, exec_refused_of_engineEntry hl⟩
  obtain ⟨t, ht⟩ := exec_of_engineEntry hentry
  exact ⟨t, ht, exec_engine_exit hl ht⟩

/-! ## The cost of an operation -/

/-- The call trace costs `n` primitives and `k` ticks; it does not begin with a delay and ends with one (R128). -/
def Costs (n k : Nat) (w : List Event) : Prop :=
  w.length = n ∧ delayCount w = k ∧ w.head? ≠ some .delay ∧ w.getLast? = some .delay

theorem costs_startTrace : Costs 7 3 startTrace := ⟨rfl, rfl, by decide, rfl⟩

theorem costs_stopTrace : Costs 6 3 stopTrace := ⟨rfl, rfl, by decide, rfl⟩

theorem putBitEvent_ne_delay : ∀ b : Bit, putBitEvent b ≠ .delay := by decide

theorem costs_bitCell (b : Bit) : Costs 6 3 (bitCell b) :=
  ⟨rfl, delayCount_bitCell b, by simp [bitCell, putBitEvent_ne_delay], rfl⟩

theorem costs_ackCell (a : Bit) : Costs 7 3 (ackCell a) := ⟨rfl, rfl, by simp [ackCell], rfl⟩

/-- A byte begins as its first bit cell does and ends as its acknowledgment cell does. -/
theorem costs_byteTrace (b : Byte) (a : Bit) : Costs 55 27 (byteTrace b a) := by
  obtain ⟨-, -, hhead, -⟩ := costs_bitCell (byteBit b 0)
  exact ⟨length_byteTrace b a, delayCount_byteTrace b a, hhead, rfl⟩

/-- Settles O14: each operation appends its own call trace, of the table's cost. -/
theorem engineCost : Obligations.EngineCost := by
  intro i s hl hentry
  obtain ⟨t, ht⟩ := exec_of_engineEntry hentry
  have hcost : ∃ w, t.trace = s.trace ++ w ∧ t.ticks = s.ticks + engineTicks i ∧
      Costs (enginePrimitives i) (engineTicks i) w := by
    obtain ⟨rfl, -, rfl⟩ | ⟨rfl, -, rfl⟩ | ⟨b, rfl, -, -, rfl⟩ | ⟨rfl, -, -, rfl⟩ | ⟨b, rfl, -, -, rfl⟩ :=
      exec_engine_eq_next hl ht
    · exact ⟨startTrace, by rw [startOp_eq], by rw [startOp_eq]; rfl, costs_startTrace⟩
    · exact ⟨stopTrace, by rw [stopOp_eq], by rw [stopOp_eq]; rfl, costs_stopTrace⟩
    · exact ⟨bitCell b, by rw [writeBitOp_eq], by rw [writeBitOp_eq]; rfl, costs_bitCell b⟩
    · exact ⟨_, by rw [readAckOp_eq], by rw [readAckOp_eq]; rfl, costs_ackCell _⟩
    · exact ⟨_, by rw [writeByteOp_eq], by rw [writeByteOp_eq]; rfl, costs_byteTrace b _⟩
  obtain ⟨w, htrace, hticks, hlen, hdelays, hhead, hlast⟩ := hcost
  exact ⟨t, w, ht, htrace, hlen, hdelays, hticks, hhead, hlast⟩

/-! ## The whole next state of each operation -/

/-- The transitions of `start` from an idle bus, where both releases find their line released already. -/
theorem transitionsFrom_startTrace_of_idle (n : Nat) :
    transitionsFrom ⟨.releasedHigh, .releasedHigh⟩ n startTrace =
      [⟨n + 1, .sda, .drivenLow⟩, ⟨n + 2, .scl, .drivenLow⟩] := rfl

/-- Between bytes the release of the clock line is a transition too. -/
theorem transitionsFrom_startTrace_of_byteActive (n : Nat) :
    transitionsFrom ⟨.drivenLow, .releasedHigh⟩ n startTrace =
      [⟨n, .scl, .releasedHigh⟩, ⟨n + 1, .sda, .drivenLow⟩, ⟨n + 2, .scl, .drivenLow⟩] := rfl

/-- Settles O6: the lines at entry, on which the transitions depend, are those its check asks for in each phase. -/
theorem startBuildsTheStartCondition : Obligations.StartBuildsTheStartCondition := by
  refine ⟨decodeInvertsEncode .start rfl, fun s hs => ?_⟩
  have hcheck : startRefusal s = none :=
    (startRefusal_eq_none_iff s).2 (hs.imp_right fun ⟨hp, hb, hd⟩ => ⟨hp, hd, hb⟩)
  refine ⟨?_, fun hp => ?_, fun hp => ?_⟩
  · rw [exec_start_of_startRefusal hcheck, startOp_eq, startTrace]
  · rw [drv_of_startRefusal_idle hcheck hp]
    exact transitionsFrom_startTrace_of_idle s.ticks
  · rw [drv_of_startRefusal_byteActive hcheck hp]
    exact transitionsFrom_startTrace_of_byteActive s.ticks

/-- The transitions of `stop` with the clock low: driving the data line low is one where it was released. -/
theorem transitionsFrom_stopTrace {d : Drives} (h : d.scl = .drivenLow) (n : Nat) :
    transitionsFrom d n stopTrace =
      lineChange d n .sda .drivenLow ++ [⟨n + 1, .scl, .releasedHigh⟩, ⟨n + 2, .sda, .releasedHigh⟩] := by
  rw [eq_drivenLow_of_scl h]
  rfl

/-- Settles O7: the equation of `stop`, and its transitions by the data line at entry. -/
theorem stopBuildsTheStopCondition : Obligations.StopBuildsTheStopCondition := by
  refine ⟨decodeInvertsEncode .stop rfl, fun s hp hd => ⟨?_, fun hsda => ?_, fun hsda => ?_⟩⟩
  · rw [exec_stop_of_open hp hd, stopOp_eq, stopTrace, Drives.released]
  · refine (transitionsFrom_stopTrace hd s.ticks).trans ?_
    simp [lineChange, hsda]
  · refine (transitionsFrom_stopTrace hd s.ticks).trans ?_
    simp [lineChange, hsda]

/-- Settles O8: the equation of `write_bit`. -/
theorem writeBitMakesOneBitCell : Obligations.WriteBitMakesOneBitCell := by
  refine ⟨decodeInvertsEncode (.writeBit 0) rfl, decodeInvertsEncode (.writeBit 1) rfl, fun b s hp hd hr => ?_⟩
  rw [exec_writeBit_of_open hp hd hr, writeBitOp_eq, bitCell, putBitEvent, driveOfBit]

/-- Settles O9: the equation of `read_ack`, the sampled bit being the answer the cell begun here gets. -/
theorem readAckSamplesOnce : Obligations.ReadAckSamplesOnce := by
  refine ⟨decodeInvertsEncode .readAck rfl, fun s hp hd hr => ⟨ackAnswer s, rfl, ?_⟩⟩
  rw [exec_readAck_of_open hp hd hr, readAckOp_eq, ackCell, ackOf]

/-- The cells of a byte by the index of their bit. -/
theorem byteCells_eq_flatMap (b : Byte) :
    byteCells b = [7, 6, 5, 4, 3, 2, 1, 0].flatMap fun i => bitCell (b.extractLsb' i 1) := rfl

/-- Settles O10: the equation of `write_byte`, its call trace cut into the bit cells and the acknowledgment cell. -/
theorem writeByteMakesNineCells : Obligations.WriteByteMakesNineCells := by
  refine ⟨decodeInvertsEncode (.writeByte 0x00) rfl, decodeInvertsEncode (.writeByte 0x10) rfl,
    decodeInvertsEncode (.writeByte 0xFF) rfl, fun B s hp hd hr => ?_⟩
  refine ⟨byteCells B, byteAnswer B s, byteCells_eq_flatMap B, rfl, ?_⟩
  rw [exec_writeByte_of_open hp hd hr, writeByteOp_eq, byteTrace, ← List.append_assoc, ackCell, ackOf]

/-! ## A repeated start -/

/-- A byte puts nine bits on the wire, so it ends at a boundary exactly where it begins at one. -/
theorem atByteBoundary_append_byteTrace {trace : List Event} (h : (replay Drives.released trace).scl = .drivenLow)
    (b : Byte) (a : Bit) : atByteBoundary (trace ++ byteTrace b a) = atByteBoundary trace := by
  have hnine : ∀ n, bitsSinceMark n (((byteBits b).map fun c => Mark.bit c none) ++ [.bit 1 (some a)]) = n + 9 :=
    fun _ => rfl
  simp only [atByteBoundary, bitsSinceMark_marksFrom_append, marksFrom_byteTrace h, hnine, Nat.add_mod_right]

/-- Settles O17: the byte leaves phase, lines and boundary as `start` asks for them. -/
theorem repeatedStartFollowsAByte : Obligations.RepeatedStartFollowsAByte := by
  intro B s hbook hboundary hentry
  obtain ⟨t, ht⟩ := exec_of_engineEntry hentry
  obtain ⟨hcheck, rfl⟩ := (guarded_eq_next_iff _ _ _).1 ht
  obtain ⟨htable, -⟩ := Option.or_eq_none_iff.1 hcheck
  obtain ⟨-, hclock⟩ := (transactionRefusal_eq_none_iff _ s).1 htable
  rw [hbook.1] at hclock
  have hstart : startRefusal (writeByteOp B s) = none := by
    refine (startRefusal_eq_none_iff _).2 (.inr ?_)
    rw [writeByteOp_eq]
    exact ⟨rfl, rfl, (atByteBoundary_append_byteTrace hclock B _).trans hboundary⟩
  exact ⟨_, _, ht, exec_start_of_startRefusal hstart, by rw [startOp_eq]⟩

/-! ## What a refusal names -/

theorem exec_start_of_startRefusal_some {s : State} {r : Refusal} (h : startRefusal s = some r) :
    exec .start s = .refused r := by
  rw [exec, execStart, h, guarded]

/-- What R127's phase and line check refuses is refused so, whichever of the four operations it is: the read request is
looked at only after it. -/
theorem exec_of_transactionRefusal_some {i : Instr} {s : State} {r : Refusal} (hl : i.layer = .protocolEngine)
    (hi : i ≠ .start) (h : transactionRefusal i s = some r) : exec i s = .refused r := by
  cases i with
  | start => exact absurd rfl hi
  | stop => rw [exec, execStop, h, guarded]
  | writeBit b => rw [exec, execWriteBit, h, Option.some_or, guarded]
  | readAck => rw [exec, execReadAck, h, Option.some_or, guarded]
  | writeByte b => rw [exec, execWriteByte, h, Option.some_or, guarded]
  | driveLow _ | releaseHigh _ | sample _ | delayBitTime | sendFrame _ => cases hl

theorem transactionRefusal_of_closed {s : State} (hp : s.phase = .idle ∨ s.phase = .stopped) (i : Instr) :
    transactionRefusal i s = some (.outOfPhase i s.phase) := by
  rcases hp with hp | hp <;> simp [transactionRefusal, hp]

theorem transactionRefusal_of_clock_released {s : State} (hp : s.phase = .started ∨ s.phase = .byteActive)
    (hd : s.drv.scl = .releasedHigh) (i : Instr) : transactionRefusal i s = some (.wrongLineState i s.drv) := by
  simp [transactionRefusal, hp, hd]

/-- Settles O12: each clause is one answer of the check of `start` or of the check the other four share. -/
theorem engineRefusalsNameTheirReason : Obligations.EngineRefusalsNameTheirReason := by
  refine fun s => ⟨?_, fun i hl hi hp => ?_, fun i hl hi hp hd => ?_, fun hp hd => ?_, fun hp hd => ?_,
    fun hp hd hb => ?_⟩
  · rintro (hp | hp) <;> exact exec_start_of_startRefusal_some (by simp [startRefusal, hp])
  · exact exec_of_transactionRefusal_some hl hi (transactionRefusal_of_closed hp i)
  · exact exec_of_transactionRefusal_some hl hi (transactionRefusal_of_clock_released hp hd i)
  · exact exec_start_of_startRefusal_some (by simp [startRefusal, hp, hd])
  · exact exec_start_of_startRefusal_some (by simp [startRefusal, hp, hd])
  · exact exec_start_of_startRefusal_some (by simp [startRefusal, hp, hd, hb])

end Sys2Proof.Machine
end

section
/-!
PROOFS of O22, O23, O24, O25, O26, O28, O20, O30 and O42: the Frame Transmitter. The result of a frame is the answer to
its address byte (`result_sendFrameOp`), and its call trace is START, the address byte, the payload that result allows
and STOP, with some acknowledgment bits (`trace_sendFrameOp`): what the observer reads, the samples and the cost are
facts about that one call trace. That later answers change nothing is that every operation of a frame respects what is
left of a state when its answers are forgotten (`answersForgotten`).
-/

namespace Sys2Proof.Machine

/-! ## The answer to the address byte -/

theorem addrByte_eq : addrByte = 0x10 := addressByteIsSixteen.1

/-- The answer of the environment at the one sample of the address byte of a frame begun in `s`. -/
def addressAnswer (s : State) : Bit := byteAnswer addrByte (startOp s)

/-- `start` and the address byte as the state they give. -/
theorem openEngine_eq (s : State) :
    openEngine s =
      { s with
        drv := ⟨.drivenLow, .releasedHigh⟩
        phase := .byteActive
        bitI := 7
        byteReg := addrByte
        ack := ackOf (addressAnswer s)
        ticks := s.ticks + 30
        trace := s.trace ++ startTrace ++ byteTrace addrByte (addressAnswer s)
        envSda := s.envSda.tail } := by
  simp only [openEngine, addressAnswer, writeByteOp_eq, startOp_eq]

/-- Steps 1 and 2 of a frame are the engine's, beside `BUSY` and `x[count]`. -/
theorem openFrame_eq_openEngine (n : Nat) (s : State) :
    openFrame n s = { openEngine s with busy := 1, count := BitVec.ofNat 8 n } := by
  simp only [openFrame_eq, openEngine, startOp_eq, writeByteOp_eq, byteAnswer]

theorem ack_openFrame_eq_zero_iff (n : Nat) (s : State) : (openFrame n s).ack = 0 ↔ addressAnswer s = 1 := by
  rw [openFrame_eq_openEngine, openEngine_eq]
  exact ackOf_eq_zero_iff _

theorem values_openFrame (n : Nat) (s : State) : (openFrame n s).values = s.values := by
  rw [openFrame_eq_openEngine, openEngine_eq]

/-- The address byte not acknowledged: the abort. -/
theorem sendFrameOp_of_absent {s : State} (h : addressAnswer s = 1) (n : Nat) :
    sendFrameOp n s = abortFrame (openFrame n s) :=
  if_pos ((ack_openFrame_eq_zero_iff n s).2 h)

/-- The address byte acknowledged: the values, then the close. -/
theorem sendFrameOp_of_present {s : State} (h : addressAnswer s = 0) (n : Nat) :
    sendFrameOp n s = closeFrame (sendValues 0 (s.values.take n) (openFrame n s)) := by
  have hack : (openFrame n s).ack ≠ 0 := by rw [Ne, ack_openFrame_eq_zero_iff, h]; decide
  rw [sendFrameOp, if_neg hack, values_openFrame]

/-- `RESULT` is the bit sampled in the address byte's acknowledgment cell. -/
theorem result_sendFrameOp (n : Nat) (s : State) : (sendFrameOp n s).result = addressAnswer s := by
  rcases bit_eq_zero_or_one (addressAnswer s) with h | h
  · rw [sendFrameOp_of_present h, closeFrame_eq, h]
  · rw [sendFrameOp_of_absent h, abortFrame_eq, h]

theorem count_sendFrameOp (n : Nat) (s : State) : (sendFrameOp n s).count = BitVec.ofNat 8 n := by
  rcases bit_eq_zero_or_one (addressAnswer s) with h | h
  · obtain ⟨-, -, -, -, -, hsame, -⟩ := sendValues_spec 0 (s.values.take n) (openFrame n s)
    obtain ⟨-, -, -, -, -, -, hcount⟩ := hsame
    rw [sendFrameOp_of_present h, closeFrame_eq, hcount, openFrame_eq_openEngine]
  · rw [sendFrameOp_of_absent h, abortFrame_eq, openFrame_eq_openEngine]

/-! ## The call trace of a frame -/

/-- The primitives of a frame: START, the address byte with its sampled bit, the payload bytes with theirs, STOP. -/
def frameTrace (result : Bit) (payload : List Byte) (acks : List Bit) : List Event :=
  startTrace ++ byteTrace addrByte result ++ bytesTrace payload acks ++ stopTrace

theorem trace_writeBytesOp (bs : List Byte) (s : State) :
    ∃ acks : List Bit, bs.length = acks.length ∧ (writeBytesOp bs s).trace = s.trace ++ bytesTrace bs acks := by
  induction bs generalizing s with
  | nil => exact ⟨[], rfl, (List.append_nil _).symm⟩
  | cons b bs ih =>
    obtain ⟨acks, hlen, htrace⟩ := ih (writeByteOp b s)
    refine ⟨byteAnswer b s :: acks, congrArg Nat.succ hlen, ?_⟩
    rw [writeBytesOp_cons, htrace, writeByteOp_eq, bytesTrace, List.append_assoc]

/-- A frame appends the primitives of a frame, which its engine program makes (O29). -/
theorem trace_sendFrameOp (n : Nat) (s : State) :
    ∃ acks : List Bit, (payloadBytes (sendFrameOp n s).result (s.values.take n)).length = acks.length ∧
      (sendFrameOp n s).trace = s.trace ++
        frameTrace (sendFrameOp n s).result (payloadBytes (sendFrameOp n s).result (s.values.take n)) acks := by
  obtain ⟨htrace, -⟩ := fields_eq_of_engineView_eq (engineView_sendFrameOp n s)
  obtain ⟨acks, hlen, hbytes⟩ :=
    trace_writeBytesOp (payloadBytes (sendFrameOp n s).result (s.values.take n)) (openEngine s)
  refine ⟨acks, hlen, ?_⟩
  rw [htrace, stopOp_eq, hbytes, openEngine_eq, ← result_sendFrameOp n s]
  simp only [frameTrace, List.append_assoc]

theorem length_payloadBytes_zero {n : Nat} {values : List Value} (h : n ≤ values.length) :
    (payloadBytes 0 (values.take n)).length = 4 * n := by
  rw [payloadBytes_zero]
  simp [valueBytes, h, Nat.mul_comm]

/-- The bytes between START and STOP, as the observer reads them (R78). -/
theorem symbolsFrom_bytesTrace_append {bs : List Byte} {acks : List Bit} (h : bs.length = acks.length)
    (es : List Event) :
    symbolsFrom (some []) (marksFrom ⟨.drivenLow, .releasedHigh⟩ (bytesTrace bs acks ++ es)) =
      List.zipWith .byte bs acks ++ symbolsFrom (some []) (marksFrom ⟨.drivenLow, .releasedHigh⟩ es) := by
  induction bs generalizing acks with
  | nil => rfl
  | cons b bs ih =>
    cases acks with
    | nil => cases h
    | cons a acks =>
      rw [bytesTrace, List.append_assoc, marksFrom_byteTrace_append, symbolsFrom_byte, ih (Nat.succ.inj h)]
      rfl

/-- After `start` from an idle bus the observer has read START, whatever follows. -/
theorem observe_startTrace_append (es : List Event) :
    observe (startTrace ++ es) = .start :: symbolsFrom (some []) (marksFrom ⟨.drivenLow, .drivenLow⟩ es) := rfl

section
variable {payload : List Byte} {acks : List Bit} (h : payload.length = acks.length) (result : Bit)
include h

theorem observe_frameTrace :
    observe (frameTrace result payload acks) =
      [.start, .byte 0x10 result] ++ List.zipWith .byte payload acks ++ [.stop] := by
  rw [frameTrace, List.append_assoc, List.append_assoc, observe_startTrace_append, marksFrom_byteTrace_append,
    symbolsFrom_byte, symbolsFrom_bytesTrace_append h, marksFrom_stopTrace rfl, addrByte_eq]
  rfl

theorem samplesOf_frameTrace : samplesOf (frameTrace result payload acks) = result :: acks := by
  simp [frameTrace, samplesOf_append, samplesOf_bytesTrace _ _ h, startTrace, stopTrace, samplesOf]

theorem length_frameTrace : (frameTrace result payload acks).length = 68 + 55 * payload.length := by
  simp only [frameTrace, List.length_append, length_byteTrace, length_bytesTrace _ _ h]
  simp only [startTrace, stopTrace, List.length_cons, List.length_nil]
  omega

theorem delayCount_frameTrace : delayCount (frameTrace result payload acks) = 33 + 27 * payload.length := by
  simp only [frameTrace, delayCount_append, delayCount_byteTrace, delayCount_bytesTrace _ _ h]
  simp only [startTrace, stopTrace, delayCount]
  omega

end

/-- A frame from its entry conditions: it completes with some call trace of a frame, of which `RESULT` is the first
sample and decides the payload. -/
theorem exec_sendFrame_frameTrace {n : Nat} {s : State} (h : FrameEntry n s) :
    ∃ t acks, exec (.sendFrame n) s = .next t ∧
      (payloadBytes t.result (s.values.take n)).length = acks.length ∧
      t.trace = s.trace ++ frameTrace t.result (payloadBytes t.result (s.values.take n)) acks := by
  obtain ⟨acks, hlen, htrace⟩ := trace_sendFrameOp n s
  exact ⟨_, acks, exec_sendFrame_of_entry h, hlen, htrace⟩

/-- Settles O22: the frame's last primitives leave an idle bus, and its first sample is its result. -/
theorem sendFrameRunsToItsEnd : Obligations.SendFrameRunsToItsEnd := by
  intro n s hentry
  have hexec := exec_sendFrame_of_entry hentry
  obtain ⟨acks, hlen, htrace⟩ := trace_sendFrameOp n s
  obtain ⟨hdrv, hphase, hbusy⟩ := sendFrameOp_ends_idle n s
  refine ⟨_, _, hexec, htrace, hdrv, hphase, hbusy, count_sendFrameOp n s, ?_,
    noOperationTouchesTheOutside _ _ _ hexec⟩
  rw [samplesOf_frameTrace hlen]
  rfl

/-- Settles O24: what the observer reads in the call trace of a frame, by its result. -/
theorem sendFrameEmitsOneFrame : Obligations.SendFrameEmitsOneFrame := by
  intro n s hentry
  obtain ⟨t, acks, hexec, hlen, htrace⟩ := exec_sendFrame_frameTrace hentry
  obtain ⟨-, -, -, -, hvalues⟩ := hentry
  refine ⟨t, _, acks, hexec, htrace, samplesOf_frameTrace hlen _, fun hres => ?_, fun hres => ?_⟩
  · rw [observe_frameTrace hlen]
    rw [hres] at hlen ⊢
    obtain rfl : acks = [] := List.length_eq_zero_iff.1 hlen.symm
    exact ⟨rfl, rfl⟩
  · rw [observe_frameTrace hlen]
    rw [hres] at hlen ⊢
    exact ⟨hlen.symm.trans (length_payloadBytes_zero hvalues), rfl⟩

/-! ## Cost -/

/-- Where the bookkeeping accounts for what changed, the delays appended are the ticks, each a Bit-Time at least. -/
theorem Accounted.ticks_elapsed {s t : State} {w : List Event} (h : Accounted s t) (hw : t.trace = s.trace ++ w) :
    t.ticks = s.ticks + delayCount w ∧ elapsedAtLeast t = elapsedAtLeast s + delayCount w * s.cfg.tBit := by
  obtain ⟨⟨hcfg, -⟩, w', hw', -, hticks⟩ := h
  obtain rfl : w = w' := List.append_cancel_left (hw.symm.trans hw')
  exact ⟨hticks, by rw [elapsedAtLeast, elapsedAtLeast, hticks, hcfg, Nat.add_mul]⟩

/-- Settles O25: the cost of the call trace of a frame, whose payload is `4 * n` bytes or none. -/
theorem sendFrameCost : Obligations.SendFrameCost := by
  intro n s hentry
  obtain ⟨t, acks, hexec, hlen, htrace⟩ := exec_sendFrame_frameTrace hentry
  obtain ⟨-, -, -, -, hvalues⟩ := hentry
  obtain ⟨hticks, helapsed⟩ := (exec_accounted hexec).ticks_elapsed htrace
  have hlength := length_frameTrace hlen t.result
  have hdelays := delayCount_frameTrace hlen t.result
  have hsamples := congrArg List.length (samplesOf_frameTrace hlen t.result)
  rw [List.length_cons, ← hlen] at hsamples
  rw [hdelays] at hticks helapsed
  refine ⟨t, _, hexec, htrace, fun hres => ?_, fun hres => ?_, bit_eq_zero_or_one t.result⟩
  · have hpayload : (payloadBytes t.result (s.values.take n)).length = 0 := by rw [hres]; rfl
    rw [hpayload] at hlength hdelays hsamples hticks helapsed
    exact ⟨hlength, hdelays, hticks, hsamples, helapsed⟩
  · have hpayload : (payloadBytes t.result (s.values.take n)).length = 4 * n := by
      rw [hres, length_payloadBytes_zero hvalues]
    have hbits : 27 * (4 * n) = 108 * n := by omega
    rw [hpayload] at hlength hdelays hsamples hticks helapsed
    rw [hbits] at hdelays hticks helapsed
    exact ⟨by omega, hdelays, hticks, by omega, helapsed⟩

/-! ## The absent peripheral and the empty frame -/

/-- Settles O23: the hypothesis is that the answer to the address byte is 1, so the frame is the abort. -/
theorem absentPeripheralEndsTheFrame : Obligations.AbsentPeripheralEndsTheFrame := by
  intro n s hentry hanswer
  have habsent : addressAnswer s = 1 := by
    simpa only [addressAnswer, byteAnswer, startOp_eq, addrByte_eq] using hanswer
  have hexec := exec_sendFrame_of_entry hentry
  obtain ⟨hbusy, hdrv, hphase, -, -⟩ := hentry
  refine ⟨?_, rfl, ?_⟩
  · rw [hexec, sendFrameOp_of_absent habsent, abortFrame_eq, openFrame_eq_openEngine, openEngine_eq, habsent,
      addrByte_eq]
    simp [hbusy, hdrv, hphase, Drives.released, ackOf]
  · exact observe_frameTrace (payload := []) (acks := []) rfl 1

/-- An empty frame is `start`, the address byte and `stop`, with the answer to the address byte latched. -/
theorem sendFrameOp_zero {s : State} (hbusy : s.busy = 0) :
    sendFrameOp 0 s = { stopOp (openEngine s) with count := 0, result := addressAnswer s } := by
  have hengine : (openEngine s).busy = 0 := by rw [openEngine_eq, hbusy]
  rcases bit_eq_zero_or_one (addressAnswer s) with h | h
  · rw [sendFrameOp_of_present h, List.take_zero, sendValues, closeFrame_eq, openFrame_eq_openEngine, stopOp_eq,
      hengine, h]
    rfl
  · rw [sendFrameOp_of_absent h, abortFrame_eq, openFrame_eq_openEngine, stopOp_eq, hengine, h]
    rfl

/-- Settles O28: the three engine calls complete, and the empty frame makes the same calls. -/
theorem emptyFrameIsAPresenceProbe : Obligations.EmptyFrameIsAPresenceProbe := by
  intro s hentry
  have hframe := exec_sendFrame_of_entry hentry
  obtain ⟨hbusy, hdrv, hphase, -, -⟩ := hentry
  have hbyte : exec (.writeByte 0x10) (startOp s) = .next (openEngine s) := by
    rw [← addrByte_eq, exec_addrByte_startOp]
  have hstop := (firstByteSent_openEngine s).exec_stop
  refine ⟨addressAnswer s, _, _, _, exec_start_of_idle hphase hdrv, hbyte, hstop, ?_, rfl, ?_, ?_, ?_, ?_⟩
  · rw [stopOp_eq, openEngine_eq, addrByte_eq]
    simp only [byteTrace, List.append_assoc]
  · exact observe_frameTrace (payload := []) (acks := []) rfl (addressAnswer s)
  · rw [stopOp_eq, Drives.released]
  · rw [stopOp_eq]
  · rw [hframe, sendFrameOp_zero hbusy]

/-! ## Answers forgotten -/

/-- What is left of a state when the answers of the environment are forgotten: those sampled, with `x[ack]`, which is
taken from them, and those to come. -/
def answersForgotten (s : State) : State := { s with ack := 0, trace := s.trace.map eraseSample, envSda := [] }

theorem map_eraseSample_byteTrace (b : Byte) (a : Bit) :
    (byteTrace b a).map eraseSample = (byteTrace b 0).map eraseSample := by
  simp [byteTrace, ackCell, eraseSample]

section
variable {t u : State} (h : answersForgotten t = answersForgotten u)
include h

/-- States alike but for the answers differ in `x[ack]`, the sampled values and the answers left. -/
theorem eq_of_answersForgotten_eq :
    t.trace.map eraseSample = u.trace.map eraseSample ∧
      u = { t with ack := u.ack, trace := u.trace, envSda := u.envSda } := by
  obtain ⟨⟩ := t
  obtain ⟨⟩ := u
  simp only [answersForgotten, State.mk.injEq] at h ⊢
  simp only [h, and_self]

theorem answersForgotten_writeByteOp (b : Byte) :
    answersForgotten (writeByteOp b t) = answersForgotten (writeByteOp b u) := by
  simp only [answersForgotten, State.mk.injEq] at h
  simp only [answersForgotten, writeByteOp_eq, List.map_append, map_eraseSample_byteTrace, h]

theorem answersForgotten_openFrame (n : Nat) :
    answersForgotten (openFrame n t) = answersForgotten (openFrame n u) := by
  rw [openFrame_eq, openFrame_eq]
  refine answersForgotten_writeByteOp ?_ addrByte
  simp only [answersForgotten, State.mk.injEq] at h
  simp only [answersForgotten, List.map_append, h]

/-- The byte sent is one of `x[val]`, in which the two states are alike. -/
theorem answersForgotten_sendValueByte (k : Nat) :
    answersForgotten (sendValueByte t k) = answersForgotten (sendValueByte u k) := by
  have hval : t.val = u.val := (congrArg State.val h :)
  have hbyte : valueByte t.val k = valueByte u.val k := by rw [hval]
  rw [sendValueByte, sendValueByte, hbyte]
  exact answersForgotten_writeByteOp (congrArg (fun s : State => { s with byteK := BitVec.ofNat 2 k }) h :) _

theorem answersForgotten_sendValue : answersForgotten (sendValue t) = answersForgotten (sendValue u) :=
  have hbyte {t u : State} (h : answersForgotten t = answersForgotten u) := answersForgotten_sendValueByte h
  hbyte (hbyte (hbyte (hbyte h 0) 1) 2) 3

theorem answersForgotten_loadValue (i : Nat) (v : Value) :
    answersForgotten (loadValue i v t) = answersForgotten (loadValue i v u) :=
  (congrArg (loadValue i v) h :)

theorem answersForgotten_sendValues (i : Nat) (vs : List Value) :
    answersForgotten (sendValues i vs t) = answersForgotten (sendValues i vs u) := by
  induction vs generalizing i t u with
  | nil => exact h
  | cons v vs ih => exact ih (answersForgotten_sendValue (answersForgotten_loadValue h i v)) (i + 1)

theorem answersForgotten_stopOp : answersForgotten (stopOp t) = answersForgotten (stopOp u) := by
  simp only [answersForgotten, State.mk.injEq] at h
  simp only [answersForgotten, stopOp_eq, List.map_append, h]

theorem answersForgotten_abortFrame : answersForgotten (abortFrame t) = answersForgotten (abortFrame u) :=
  congrArg (fun s => { s with result := resultPeripheralAbsent, busy := 0 }) (answersForgotten_stopOp h)

theorem answersForgotten_closeFrame : answersForgotten (closeFrame t) = answersForgotten (closeFrame u) :=
  congrArg (fun s => { s with result := resultOk, busy := 0 }) (answersForgotten_stopOp h)

/-- A frame tells two states that are alike but for the answers apart by the answer to its address byte only. -/
theorem answersForgotten_sendFrameOp (ha : addressAnswer t = addressAnswer u) (n : Nat) :
    answersForgotten (sendFrameOp n t) = answersForgotten (sendFrameOp n u) := by
  have hopen := answersForgotten_openFrame h n
  have hvalues : t.values = u.values := (congrArg State.values h :)
  rcases bit_eq_zero_or_one (addressAnswer u) with hu | hu
  · rw [sendFrameOp_of_present (ha.trans hu), sendFrameOp_of_present hu, hvalues]
    exact answersForgotten_closeFrame (answersForgotten_sendValues hopen 0 _)
  · rw [sendFrameOp_of_absent (ha.trans hu), sendFrameOp_of_absent hu]
    exact answersForgotten_abortFrame hopen

end

/-- Settles O26: the two states are alike but for the answers, and the first answer is the address byte's. -/
theorem dataAcknowledgmentsAreIgnored : Obligations.DataAcknowledgmentsAreIgnored := by
  intro n s a as bs hentry
  have hanswer : ∀ cs, addressAnswer { s with envSda := a :: cs } = a := fun cs => by
    rw [addressAnswer, startOp_eq]
    rfl
  have halike := answersForgotten_sendFrameOp (t := { s with envSda := a :: as }) (u := { s with envSda := a :: bs })
    rfl ((hanswer as).trans (hanswer bs).symm) n
  exact ⟨_, _, exec_sendFrame_of_entry hentry, exec_sendFrame_of_entry hentry, eq_of_answersForgotten_eq halike⟩

/-! ## Values, refusals and requests -/

/-- Settles O20, by computing the bytes of the five values. -/
theorem valueBytesOfCornerValues : Obligations.ValueBytesOfCornerValues :=
  ⟨by decide, by decide, by decide, by decide, by decide⟩

theorem exec_sendFrame_of_frameRefusal_some {n : Nat} {s : State} {r : Refusal} (h : frameRefusal n s = some r) :
    exec (.sendFrame n) s = .refused r := by
  rw [exec, execSendFrame, h, guarded]

/-- Settles O30: the first of the four checks of `send_frame` that fails gives the reason. -/
theorem sendFrameRefusals : Obligations.SendFrameRefusals := by
  refine fun n s => ⟨fun hbusy => exec_sendFrame_of_frameRefusal_some ?_,
    fun hbusy hidle => exec_sendFrame_of_frameRefusal_some ?_,
    fun hbusy hdrv hphase hport => exec_sendFrame_of_frameRefusal_some ?_,
    fun hbusy hdrv hphase hport hvalues => exec_sendFrame_of_frameRefusal_some ?_⟩
  · simp [frameRefusal, hbusy]
  · rw [← busIdle_eq_true_iff, Bool.not_eq_true] at hidle
    simp [frameRefusal, hbusy, hidle]
  · have hidle := (busIdle_eq_true_iff s).2 ⟨hdrv, hphase⟩
    simp [frameRefusal, hbusy, hidle, maxCount, hport]
  · have hidle := (busIdle_eq_true_iff s).2 ⟨hdrv, hphase⟩
    simp [frameRefusal, hbusy, hidle, maxCount, Nat.not_lt.2 hport, hvalues]

theorem step_of_frame {s : State} {vs : List Value} {n : Int} {rest : List Input}
    (h : s.inbox = .frame vs n :: rest) : step s = serveFrame vs n { s with inbox := rest } := by
  rw [step, takeInput, h]
  rfl

/-- Settles O42: a negative count is refused by the request, one above 255 by `send_frame` (O30). -/
theorem stepServesAFrameRequest : Obligations.StepServesAFrameRequest := by
  intro s vs n rest hin
  have hserve : 0 ≤ n → step s = exec (.sendFrame n.toNat) { s with values := vs, inbox := rest } := fun hn => by
    rw [step_of_frame hin, serveFrame, if_neg (Int.not_lt.2 hn)]
  refine ⟨hserve, fun hn => ?_, fun hn hidle hbusy => ?_⟩
  · rw [step_of_frame hin, serveFrame, if_pos hn]
  · obtain ⟨hdrv, hphase⟩ := (busIdle_eq_true_iff s).1 hidle
    obtain ⟨-, -, hcount, -⟩ := sendFrameRefusals n.toNat { s with values := vs, inbox := rest }
    rw [hserve (by omega), hcount hbusy hdrv hphase (by omega), Int.toNat_of_nonneg (by omega)]

end Sys2Proof.Machine
end

section
/-!
PROOF of O44: a step with nothing offered waits.
-/

namespace Sys2Proof.Machine

/-- Settles O44: a step takes the oldest input, and of an empty inbox there is none to serve. -/
theorem stepWaitsWhenNothingIsOffered : Obligations.StepWaitsWhenNothingIsOffered := by
  intro s hempty
  rw [step, takeInput, hempty]

end Sys2Proof.Machine
end

section
/-!
PROOFS of O38 and O43. What the host can ask for ends in one of two ways: a frame ends on an idle bus with `BUSY` 0 and
keeps pace (O36), a reset begins a new history. So a step of a machine that only its host drives leaves it such a machine.
-/

namespace Sys2Proof.Machine

/-! ## What only the host offers -/

/-- The oldest of the pending inputs, taken, leaves the host's own pending. -/
theorem hostOnly_of_inbox_eq_cons {s t : State} {input : Input} (hs : hostOnly s = true)
    (hin : s.inbox = input :: t.inbox) : hostOnly t = true := by
  rw [hostOnly, hin, List.all_cons, Bool.and_eq_true] at hs
  exact hs.2

/-- The host offers no operation word (R80). -/
theorem inbox_ne_operation_of_hostOnly {s : State} (hs : hostOnly s = true) (w : Word) (rest : List Input) :
    s.inbox ≠ .operation w :: rest := by
  intro hin
  simp [hostOnly, hin] at hs

theorem hostOnly_of_sameOutside {s t : State} (h : SameOutside s t) (hs : hostOnly s = true) : hostOnly t = true := by
  obtain ⟨-, -, -, hin⟩ := h
  rwa [hostOnly, hin]

/-! ## A frame and a reset end on an idle bus -/

/-- A frame that completes needs no more than pace at its entry: `exec` has checked the rest. -/
theorem hostDriven_of_exec_sendFrame {n : Nat} {s t : State} (hhost : hostOnly s = true) (hs : OnPace s)
    (h : exec (.sendFrame n) s = .next t) : HostDriven t := by
  obtain ⟨hbook, hspaced⟩ := hs.sendFrame h
  have hin : hostOnly t = true := hostOnly_of_sameOutside (noOperationTouchesTheOutside _ _ _ h) hhost
  obtain ⟨-, rfl⟩ := (guarded_eq_next_iff _ _ _).1 h
  obtain ⟨hdrv, hphase, hbusy⟩ := sendFrameOp_ends_idle n s
  exact ⟨hin, (busIdle_eq_true_iff _).2 ⟨hdrv, hphase⟩, hbusy, hbook, hspaced⟩

theorem hostDriven_resetAction {s : State} (hhost : hostOnly s = true) : HostDriven (resetAction s) := by
  have hspaced : Spaced (resetAction s) := ⟨rfl, List.forall_mem_nil _⟩
  exact ⟨hhost, rfl, rfl, bookkeeping_resetAction s, hspaced⟩

/-- Settles O38: of a step that completes, what the host offers leaves waiting, a frame and a reset. -/
theorem hostDrivenMachineRestsOnAnIdleBus : Obligations.HostDrivenMachineRestsOnAnIdleBus := by
  intro s t hs h
  have ⟨hhost, _, _, hbook, hspaced⟩ := hs
  obtain ⟨-, rfl⟩ | ⟨w, rest, i, hin, -, -⟩ | ⟨vs, n, rest, hin, -, hexec⟩ | ⟨rest, hin, -, rfl⟩ := step_eq_next h
  · exact hs
  · exact absurd hin (inbox_ne_operation_of_hostOnly hhost w rest)
  · have hpace : OnPace { s with values := vs, inbox := rest } := ⟨hbook, hspaced⟩
    exact hostDriven_of_exec_sendFrame (hostOnly_of_inbox_eq_cons hhost hin) hpace hexec
  · exact hostDriven_resetAction (hostOnly_of_inbox_eq_cons hhost hin)

/-! ## Reset -/

theorem step_of_reset {s : State} {rest : List Input} (h : s.inbox = .reset :: rest) :
    step s = serveReset { s with inbox := rest } := by
  rw [step, takeInput, h]
  rfl

/-- Settles O43: the reset port looks at `BUSY` only; what it then gives is the reset action's. -/
theorem stepServesReset : Obligations.StepServesReset := by
  intro s rest hin
  rw [step_of_reset hin, serveReset]
  refine ⟨fun hbusy => ⟨_, if_neg ?_, rfl, rfl, rfl, rfl, rfl, rfl, rfl, rfl⟩, fun hbusy => if_pos hbusy⟩
  simp [hbusy]

end Sys2Proof.Machine
end
